-- ==== Sys2Proof/Word.lean ====
section
/-! DEFINITION. The widths of the machine's values (spec/00_scope.md R7, R9, R10). Every value is
unsigned; arithmetic on these types wraps at their width. -/

namespace Sys2Proof

/-- One byte: a general register, a timer, a memory cell, an immediate `nn`. -/
abbrev Byte := BitVec 8

/-- Sixteen bits: `pc`, `I`, a call-stack entry, an instruction word. -/
abbrev Word := BitVec 16

/-- A register field `x` or `y` of an instruction word: it names one of `V0` to `VF` (R20). -/
abbrev RegIdx := BitVec 4

/-- A 12-bit address field `nnn`. -/
abbrev Addr := BitVec 12

/-- A key identifier, 0 to 15 (spec/10_state.md R30). -/
abbrev Key := BitVec 4

end Sys2Proof
end

