-- ==== Sys2Proof/Machine/Status.lean ====
section
/-! DEFINITION. The block's fatal errors, what its status port says, and the environment's moves
(spec/60_exceptions.md R260, R267; spec/10_state.md R40 to R45). -/

namespace Sys2Proof.Machine

/-- The five error kinds of R260, all fatal. -/
inductive Error where
  /-- R261: the word is of selector 0 and neither 00E0 nor 00EE. -/
  | incompatibleProgram
  /-- R262: the word decodes to nothing valid; it carries the raw word. -/
  | malformedInstruction (op : Word)
  /-- R263: Call with a full stack. -/
  | stackOverflow
  /-- R264: Return with an empty stack. -/
  | stackUnderflow
  /-- R265: a reset whose image is longer than the memory above the program base. -/
  | loadTooLarge
  deriving DecidableEq, Repr, Inhabited

/-- The result of the last cycle (R45). -/
inductive Status where
  /-- An instruction was executed; `redraw` says whether it was Draw or Clear. -/
  | ok (redraw : Bool)
  /-- AwaitKeyInput found no key. -/
  | waiting
  /-- A fatal error, raised in this cycle or before it. -/
  | error (e : Error)
  deriving DecidableEq, Repr, Inhabited

/-- The environment's moves (spec/40_cycle.md R120; spec/10_state.md R40 to R43). -/
inductive Strobe where
  | cycle
  | tick
  | keyIn (k : Option Key)
  | reset (image : List Byte)
  deriving DecidableEq, Repr, Inhabited

/-- The run state (spec/10_state.md R31). -/
inductive RunState where
  | running
  | halted (e : Error)
  deriving DecidableEq, Repr

end Sys2Proof.Machine
end

