-- ==== Sys2Proof/Config.lean ====
section
/-! DEFINITION. What an implementation fixes: the policies (spec/00_scope.md R8) and the parameters a model
takes as configuration (R7, spec/93_implementation_defined.md rows 8 to 11); and the free values:
constants without a body, of which nothing can be proved. The parameters' reference values are in
Machine/Params.lean. -/

namespace Sys2Proof.Config

/-- ADDR_POLICY (D5): what an address above 0xFFF does (spec/20_memory.md R62). -/
inductive AddrPolicy where
  | mask
  | fault
  deriving DecidableEq, Repr

/-- ODD_PC_POLICY (D7): what a fetch at an odd `pc` does (spec/20_memory.md R68). -/
inductive OddPcPolicy where
  | fetch
  | fault
  deriving DecidableEq, Repr

/-- LOW_NIBBLE_5_9 (D8): a nonzero low nibble of 5XYn and 9XYn (spec/30_encoding.md R98). -/
inductive LowNibblePolicy where
  | ignore
  | malformed
  deriving DecidableEq, Repr

/-- VF_ALIAS_POLICY (D9): `VF` after a flag instruction whose destination is `VF`
(spec/42_arithmetic.md R161). -/
inductive VfAliasPolicy where
  | draw
  | flagLast
  | textOrder
  deriving DecidableEq, Repr

/-- LOADSTORE_I (D13): `I` after DumpRegisters and LoadRegisters (spec/43_memory_index.md R197). -/
inductive LoadStoreIPolicy where
  | unchanged
  | xPlusOne
  deriving DecidableEq, Repr

/-- One choice of the five policy parameters of R8. -/
structure Policy where
  addr : AddrPolicy
  oddPc : OddPcPolicy
  lowNibble : LowNibblePolicy
  vfAlias : VfAliasPolicy
  loadStoreI : LoadStoreIPolicy
  deriving DecidableEq, Repr

/-- The defaults of R8: the reference configuration of spec/92_eei_decisions.md. -/
def Policy.reference : Policy where
  addr := .mask
  oddPc := .fetch
  lowNibble := .ignore
  vfAlias := .draw
  loadStoreI := .unchanged

/-- The parameters of R7 that a model takes as configuration, with the font of spec/20_memory.md R65. -/
structure Params where
  /-- `STACK_DEPTH`: the call stack's capacity (D4). -/
  stackDepth : Nat
  /-- `DISPLAY_W` (D1). -/
  displayW : Nat
  /-- `DISPLAY_H` (D1). -/
  displayH : Nat
  /-- `PROGRAM_BASE` (D3): where an image is loaded and where execution starts. -/
  programBase : Nat
  /-- `FONT_BASE` (D2). -/
  fontBase : Nat
  /-- `GLYPH_SIZE` (D2): bytes per glyph. -/
  glyphSize : Nat
  /-- The font bytes, glyph 0 first, each glyph top row first. -/
  font : List Byte
  deriving DecidableEq, Repr

/-- FREE VALUE. The byte `draw_byte()` returns at the n-th free choice (spec/44_random.md R210): any
byte, under no law (assumption log 4). -/
opaque drawByte : Nat → Byte

/-- FREE VALUE. The strobe the environment sends at the n-th free choice: any of the four, in any order,
under no fairness (spec/40_cycle.md R120; assumption log 1). -/
opaque strobe : Nat → Machine.Strobe

/-- FREE VALUE. What the status port shows between a reset and the first cycle, when the n-th free
choice is spent on it: undefined by spec/10_state.md R50 (assumption log 6). -/
opaque freeStatus : Nat → Machine.Status

end Sys2Proof.Config
end

