-- ==== Sys2Proof/Syntax.lean ====
section
/-! DEFINITION. The instructions: one constructor per row of spec/opcode_table.json, with the
operand fields of the row (spec/30_encoding.md R91, R92, R100). Field order: x, y, then the immediate. -/

namespace Sys2Proof

inductive Instr where
  /-- 00E0 (R218) -/
  | clear
  /-- 00EE, Return (R143) -/
  | ret
  /-- 0NNN other than 00E0 and 00EE (R96, R261): the word that raises IncompatibleProgram. -/
  | incompatibleProgram (nnn : Addr)
  /-- 1NNN (R141) -/
  | jump (nnn : Addr)
  /-- 2NNN (R142) -/
  | call (nnn : Addr)
  /-- 3XNN (R145) -/
  | skipIfVxEqualsNn (x : RegIdx) (nn : Byte)
  /-- 4XNN (R146) -/
  | skipIfVxNotEqualsNn (x : RegIdx) (nn : Byte)
  /-- 5XY0 (R147) -/
  | skipIfVxEqualsVy (x y : RegIdx)
  /-- 6XNN (R170) -/
  | setImmediate (x : RegIdx) (nn : Byte)
  /-- 7XNN (R171) -/
  | addImmediate (x : RegIdx) (nn : Byte)
  /-- 8XY0 (R172) -/
  | copy (x y : RegIdx)
  /-- 8XY1 (R167) -/
  | or (x y : RegIdx)
  /-- 8XY2 (R168) -/
  | and (x y : RegIdx)
  /-- 8XY3 (R169) -/
  | xor (x y : RegIdx)
  /-- 8XY4 (R162) -/
  | add (x y : RegIdx)
  /-- 8XY5 (R163) -/
  | subtract (x y : RegIdx)
  /-- 8XY6 (R165); `y` is encoded and ignored. -/
  | rightShift (x y : RegIdx)
  /-- 8XY7 (R164) -/
  | setVxToVyMinusVx (x y : RegIdx)
  /-- 8XYE (R166); `y` is encoded and ignored. -/
  | leftShift (x y : RegIdx)
  /-- 9XY0 (R148) -/
  | skipIfVxNotEqualsVy (x y : RegIdx)
  /-- ANNN (R191) -/
  | setIndexRegister (nnn : Addr)
  /-- BNNN (R144) -/
  | jumpWithPcOffset (nnn : Addr)
  /-- CXNN (R211) -/
  | random (x : RegIdx) (nn : Byte)
  /-- DXYN (R220) -/
  | draw (x y : RegIdx) (n : BitVec 4)
  /-- EX9E (R236) -/
  | skipIfKeyPressed (x : RegIdx)
  /-- EXA1 (R237) -/
  | skipIfKeyNotPressed (x : RegIdx)
  /-- FX07 (R250) -/
  | setVxToDelayTimer (x : RegIdx)
  /-- FX0A (R240) -/
  | awaitKeyInput (x : RegIdx)
  /-- FX15 (R251) -/
  | setDelayTimer (x : RegIdx)
  /-- FX18 (R252) -/
  | setSoundTimer (x : RegIdx)
  /-- FX1E (R192) -/
  | addToIndex (x : RegIdx)
  /-- FX29 (R193) -/
  | setIndexToFontCharacter (x : RegIdx)
  /-- FX33 (R194) -/
  | setIndexToBinaryCodedVx (x : RegIdx)
  /-- FX55 (R195) -/
  | dumpRegisters (x : RegIdx)
  /-- FX65 (R196) -/
  | loadRegisters (x : RegIdx)
  deriving DecidableEq, Repr

end Sys2Proof
end

