-- ==== Sys2Proof/WellFormed.lean ====
section
/-! DEFINITION. Which terms of Instr are instructions of the machine. Every field is as wide as its
place in the word (spec/30_encoding.md R92), so one check is left: the row 0NNN applies only to words
other than 00E0 and 00EE (R96, R100). -/

namespace Sys2Proof

/-- The term is the meaning of some word. -/
def wellFormed : Instr → Bool
  | .incompatibleProgram nnn => nnn != 0x0E0 && nnn != 0x0EE
  | _ => true

end Sys2Proof
end

