-- ==== Sys2Proof/Decode.lean ====
section
/-! DEFINITION. The decoder of spec/30_encoding.md R94, total on all words and rejecting by name, then
the encoder, written from the map of R100. -/

namespace Sys2Proof

/-! ### Fields (spec/00_scope.md R9, spec/30_encoding.md R92) -/

/-- `op[15:12]`, the primary selector. -/
def fieldSelector (op : Word) : BitVec 4 := op.extractLsb' 12 4
/-- `op[11:8]` -/
def fieldX (op : Word) : RegIdx := op.extractLsb' 8 4
/-- `op[7:4]` -/
def fieldY (op : Word) : RegIdx := op.extractLsb' 4 4
/-- `op[3:0]` -/
def fieldN (op : Word) : BitVec 4 := op.extractLsb' 0 4
/-- `op[7:0]` -/
def fieldNn (op : Word) : Byte := op.extractLsb' 0 8
/-- `op[11:0]` -/
def fieldNnn (op : Word) : Addr := op.extractLsb' 0 12

/-! ### The decode function (R93, R94) -/

/-- Selector 0 compares the whole word (R96). -/
def decodeSelector0 (op : Word) : Instr :=
  if op = 0x00E0 then .clear
  else if op = 0x00EE then .ret
  else .incompatibleProgram (fieldNnn op)

/-- Selector 8 dispatches on the low nibble; 8 to D and F are malformed (R97). -/
def decodeSelector8 (op : Word) : Except Machine.Error Instr :=
  match (fieldN op).toNat with
  | 0x0 => .ok (.copy (fieldX op) (fieldY op))
  | 0x1 => .ok (.or (fieldX op) (fieldY op))
  | 0x2 => .ok (.and (fieldX op) (fieldY op))
  | 0x3 => .ok (.xor (fieldX op) (fieldY op))
  | 0x4 => .ok (.add (fieldX op) (fieldY op))
  | 0x5 => .ok (.subtract (fieldX op) (fieldY op))
  | 0x6 => .ok (.rightShift (fieldX op) (fieldY op))
  | 0x7 => .ok (.setVxToVyMinusVx (fieldX op) (fieldY op))
  | 0xE => .ok (.leftShift (fieldX op) (fieldY op))
  | _ => .error (.malformedInstruction op)

/-- Selector E dispatches on the low byte (R97). -/
def decodeSelectorE (op : Word) : Except Machine.Error Instr :=
  if fieldNn op = 0x9E then .ok (.skipIfKeyPressed (fieldX op))
  else if fieldNn op = 0xA1 then .ok (.skipIfKeyNotPressed (fieldX op))
  else .error (.malformedInstruction op)

/-- Selector F dispatches on the low byte (R97). -/
def decodeSelectorF (op : Word) : Except Machine.Error Instr :=
  if fieldNn op = 0x07 then .ok (.setVxToDelayTimer (fieldX op))
  else if fieldNn op = 0x0A then .ok (.awaitKeyInput (fieldX op))
  else if fieldNn op = 0x15 then .ok (.setDelayTimer (fieldX op))
  else if fieldNn op = 0x18 then .ok (.setSoundTimer (fieldX op))
  else if fieldNn op = 0x1E then .ok (.addToIndex (fieldX op))
  else if fieldNn op = 0x29 then .ok (.setIndexToFontCharacter (fieldX op))
  else if fieldNn op = 0x33 then .ok (.setIndexToBinaryCodedVx (fieldX op))
  else if fieldNn op = 0x55 then .ok (.dumpRegisters (fieldX op))
  else if fieldNn op = 0x65 then .ok (.loadRegisters (fieldX op))
  else .error (.malformedInstruction op)

/-- Selectors 5 and 9: `i`, unless LOW_NIBBLE_5_9 = malformed and the low nibble is not 0 (R98). -/
def decodeLowNibble (p : Config.LowNibblePolicy) (op : Word) (i : Instr) :
    Except Machine.Error Instr :=
  if fieldN op = 0 ∨ p = .ignore then .ok i else .error (.malformedInstruction op)

/-- `decode(op)` of R94. The words of the row 0NNN decode to the constructor whose meaning raises
IncompatibleProgram (assumption log 8). -/
def decode (p : Config.LowNibblePolicy) (op : Word) : Except Machine.Error Instr :=
  match (fieldSelector op).toNat with
  | 0x0 => .ok (decodeSelector0 op)
  | 0x1 => .ok (.jump (fieldNnn op))
  | 0x2 => .ok (.call (fieldNnn op))
  | 0x3 => .ok (.skipIfVxEqualsNn (fieldX op) (fieldNn op))
  | 0x4 => .ok (.skipIfVxNotEqualsNn (fieldX op) (fieldNn op))
  | 0x5 => decodeLowNibble p op (.skipIfVxEqualsVy (fieldX op) (fieldY op))
  | 0x6 => .ok (.setImmediate (fieldX op) (fieldNn op))
  | 0x7 => .ok (.addImmediate (fieldX op) (fieldNn op))
  | 0x8 => decodeSelector8 op
  | 0x9 => decodeLowNibble p op (.skipIfVxNotEqualsVy (fieldX op) (fieldY op))
  | 0xA => .ok (.setIndexRegister (fieldNnn op))
  | 0xB => .ok (.jumpWithPcOffset (fieldNnn op))
  | 0xC => .ok (.random (fieldX op) (fieldNn op))
  | 0xD => .ok (.draw (fieldX op) (fieldY op) (fieldN op))
  | 0xE => decodeSelectorE op
  | _ => decodeSelectorF op

/-- Why a string of bytes gives no instruction. -/
inductive ByteReject where
  /-- Fewer than the two bytes every instruction has (R90). -/
  | truncated
  /-- Two bytes whose word the decoder rejects. -/
  | malformed (e : Machine.Error)
  deriving DecidableEq, Repr

/-- Two bytes as a word, the high byte first (spec/20_memory.md R66). -/
def wordOfBytes (hi lo : Byte) : Word := hi ++ lo

/-- The bytes of a word in the order of their addresses (R66). -/
def bytesOfWord (op : Word) : Byte × Byte := (op.extractLsb' 8 8, op.extractLsb' 0 8)

/-- The instruction at the front of a string of bytes, and the bytes after it. -/
def decodeBytes (p : Config.LowNibblePolicy) : List Byte → Except ByteReject (Instr × List Byte)
  | hi :: lo :: rest =>
    match decode p (wordOfBytes hi lo) with
    | .ok i => .ok (i, rest)
    | .error e => .error (.malformed e)
  | _ => .error .truncated

/-! ### The encoder (R100) -/

/-- The word of a well-formed instruction. 5XY0 and 9XY0 have low nibble 0. -/
def encode : Instr → Word
  | .clear => 0x00E0
  | .ret => 0x00EE
  | .incompatibleProgram nnn => 0x0#4 ++ nnn
  | .jump nnn => 0x1#4 ++ nnn
  | .call nnn => 0x2#4 ++ nnn
  | .skipIfVxEqualsNn x nn => 0x3#4 ++ x ++ nn
  | .skipIfVxNotEqualsNn x nn => 0x4#4 ++ x ++ nn
  | .skipIfVxEqualsVy x y => 0x5#4 ++ x ++ y ++ 0x0#4
  | .setImmediate x nn => 0x6#4 ++ x ++ nn
  | .addImmediate x nn => 0x7#4 ++ x ++ nn
  | .copy x y => 0x8#4 ++ x ++ y ++ 0x0#4
  | .or x y => 0x8#4 ++ x ++ y ++ 0x1#4
  | .and x y => 0x8#4 ++ x ++ y ++ 0x2#4
  | .xor x y => 0x8#4 ++ x ++ y ++ 0x3#4
  | .add x y => 0x8#4 ++ x ++ y ++ 0x4#4
  | .subtract x y => 0x8#4 ++ x ++ y ++ 0x5#4
  | .rightShift x y => 0x8#4 ++ x ++ y ++ 0x6#4
  | .setVxToVyMinusVx x y => 0x8#4 ++ x ++ y ++ 0x7#4
  | .leftShift x y => 0x8#4 ++ x ++ y ++ 0xE#4
  | .skipIfVxNotEqualsVy x y => 0x9#4 ++ x ++ y ++ 0x0#4
  | .setIndexRegister nnn => 0xA#4 ++ nnn
  | .jumpWithPcOffset nnn => 0xB#4 ++ nnn
  | .random x nn => 0xC#4 ++ x ++ nn
  | .draw x y n => 0xD#4 ++ x ++ y ++ n
  | .skipIfKeyPressed x => 0xE#4 ++ x ++ 0x9E#8
  | .skipIfKeyNotPressed x => 0xE#4 ++ x ++ 0xA1#8
  | .setVxToDelayTimer x => 0xF#4 ++ x ++ 0x07#8
  | .awaitKeyInput x => 0xF#4 ++ x ++ 0x0A#8
  | .setDelayTimer x => 0xF#4 ++ x ++ 0x15#8
  | .setSoundTimer x => 0xF#4 ++ x ++ 0x18#8
  | .addToIndex x => 0xF#4 ++ x ++ 0x1E#8
  | .setIndexToFontCharacter x => 0xF#4 ++ x ++ 0x29#8
  | .setIndexToBinaryCodedVx x => 0xF#4 ++ x ++ 0x33#8
  | .dumpRegisters x => 0xF#4 ++ x ++ 0x55#8
  | .loadRegisters x => 0xF#4 ++ x ++ 0x65#8

/-- The bytes of an instruction as memory holds them. -/
def encodeBytes (i : Instr) : List Byte := [(bytesOfWord (encode i)).1, (bytesOfWord (encode i)).2]

/-! ### The opcode table's numbering -/

/-- The word whose low `nbits` bits are those of `w` and whose other bits are 0. -/
def wordOfTable (nbits w : Nat) : Word := BitVec.ofNat 16 (w % 2 ^ nbits)

/-- The instruction the decoder reads, under the reference policy, from the bytes of the word `w`
numbered as spec/opcode_table.json numbers it. -/
def decodeTableWord (nbits w : Nat) : Option Instr :=
  let bytes := bytesOfWord (wordOfTable nbits w)
  match decodeBytes Config.Policy.reference.lowNibble [bytes.1, bytes.2] with
  | .ok (i, _) => some i
  | .error _ => none

end Sys2Proof
end

