-- ==== Sys2Proof/Machine/Params.lean ====
section
/-! DEFINITION. The fixed sizes of spec/00_scope.md R7; the reference values of its parameters
(spec/92_eei_decisions.md D1 to D4; assumption log 7); which choices of them make a machine. -/

namespace Sys2Proof.Config

/-- `MEM_SIZE`: bytes of memory. -/
abbrev memSize : Nat := 4096

/-- How many glyphs the font has (spec/20_memory.md R65). -/
abbrev glyphCount : Nat := 16

/-- The reference font bytes (R65). -/
def referenceFont : List Byte :=
  [0xF0, 0x90, 0x90, 0x90, 0xF0,  0x20, 0x60, 0x20, 0x20, 0x70,
   0xF0, 0x10, 0xF0, 0x80, 0xF0,  0xF0, 0x10, 0xF0, 0x10, 0xF0,
   0x90, 0x90, 0xF0, 0x10, 0x10,  0xF0, 0x80, 0xF0, 0x10, 0xF0] ++
  [0xF0, 0x80, 0xF0, 0x90, 0xF0,  0xF0, 0x10, 0x20, 0x40, 0x40,
   0xF0, 0x90, 0xF0, 0x90, 0xF0,  0xF0, 0x90, 0xF0, 0x10, 0xF0] ++
  [0xF0, 0x90, 0xF0, 0x90, 0x90,  0xE0, 0x90, 0xE0, 0x90, 0xE0,
   0xF0, 0x80, 0x80, 0x80, 0xF0,  0xE0, 0x90, 0x90, 0x90, 0xE0,
   0xF0, 0x80, 0xF0, 0x80, 0xF0,  0xF0, 0x80, 0xF0, 0x80, 0x80]

/-- The values spec/92_eei_decisions.md decides. -/
def Params.reference : Params where
  stackDepth := 16
  displayW := 64
  displayH := 32
  programBase := 0x200
  fontBase := 0x050
  glyphSize := 5
  font := referenceFont

/-- `MAX_IMAGE`: the longest image that fits (R7). -/
def Params.maxImage (p : Params) : Nat := memSize - p.programBase

/-- How many bytes the font takes. -/
def Params.fontSize (p : Params) : Nat := glyphCount * p.glyphSize

/-- The parameters make a machine: the display has a pixel, and program base and font lie in memory. -/
def Params.wf (p : Params) : Bool :=
  decide (0 < p.displayW) && decide (0 < p.displayH) && decide (p.programBase ≤ memSize) &&
    decide (p.fontBase + p.fontSize ≤ memSize) && decide (p.font.length = p.fontSize)

end Sys2Proof.Config
end

