-- ==== Sys2Proof/Machine/State.lean ====
section
/-! DEFINITION. The machine's state as plain data, holding every piece of state spec/10_state.md names,
the output ports' last values, the configuration (`policy`, `params`) and two fields of the model's own
(`strobes`, `choices`); the reasons a step can stop; the state after reset. -/

namespace Sys2Proof.Machine

/-- The display buffer (spec/10_state.md R29): its rows from the top, each row's pixels from the left.
`true` is lit. `DISPLAY_H` rows of `DISPLAY_W` pixels (Machine/Ops.lean: `Display.shaped`). -/
abbrev Display := List (List Bool)

/-- The display of `w` x `h` pixels with every pixel 0 (spec/45_display.md R216). -/
def Display.dark (w h : Nat) : Display := List.replicate h (List.replicate w false)

/-- Memory (spec/20_memory.md R60): the cells whose byte differs from what an unlisted address reads
as, in rising order of address (Machine/Ops.lean: `Memory.unlisted`, `Memory.wf`). -/
abbrev Memory := List Host.Cell

/-- The machine. -/
structure State where
  /-- General registers `V0` to `VF` (R20). -/
  V : Vector Byte 16
  /-- Index register (R24). -/
  I : Word
  /-- Program counter (R23). -/
  pc : Word
  /-- Call stack; the last entry is the top (R25). -/
  stack : List Word
  /-- Delay timer (R27). -/
  DT : Byte
  /-- Sound timer (R28). -/
  ST : Byte
  /-- Display buffer (R29). -/
  disp : Display
  /-- Memory (R34). -/
  mem : Memory
  /-- Keypad input latch (R30). -/
  key : Option Key
  /-- Run state (R31). -/
  run : RunState
  /-- Status port: the result of the last cycle (R45). -/
  status : Status
  /-- Frame port: the snapshot the last cycle strobed, if it strobed one (R44). -/
  frame : Option Display
  /-- The environment's next strobes, as far as they are settled; after them each strobe is a free
  choice (assumption log 1). -/
  strobes : List Strobe
  /-- The five policy parameters of spec/00_scope.md R8; no step changes them (assumption log 3). -/
  policy : Config.Policy
  /-- The parameters of R7 taken as configuration; no step changes them (assumption log 7). -/
  params : Config.Params
  /-- How many free values have been taken (assumption log 4). -/
  choices : Nat
  deriving DecidableEq, Repr

/-- The model's own faults (spec/60_exceptions.md R268). They end the modelled run. The block's fatal
errors are no faults here: they are next states with `run = halted e`. -/
inductive Fault where
  /-- Raised by a fetch, Draw, SetIndexToBinaryCodedVx, DumpRegisters or LoadRegisters whose address is
  above 0xFFF under ADDR_POLICY = fault (spec/20_memory.md R62). Safe: the run stops where the
  hardware may go on. -/
  | addressOutOfRange (a : Nat)
  /-- Raised by the fetch at an odd `pc` under ODD_PC_POLICY = fault (spec/20_memory.md R68). Safe: the
  run stops where the hardware may go on. -/
  | misalignedFetch (pc : Word)
  deriving DecidableEq, Repr

/-- Why the model has no step. -/
inductive Refusal where
  /-- Raised by an arm of `exec` whose instruction has no meaning yet; none is left. Safe: nothing can be
  proved of a run that reaches it. -/
  | notModelled (mnemonic : String)
  deriving DecidableEq, Repr

/-- The machine right after a reset with the empty image (spec/10_state.md R50,
spec/70_reset_and_hazards.md R290; assumption log 2). The status port is undefined until the first
cycle: a free value. -/
def State.reset : State where
  V := Vector.replicate 16 0x00
  I := 0x0000
  pc := BitVec.ofNat 16 Config.Params.reference.programBase
  stack := []
  DT := 0x00
  ST := 0x00
  disp := Display.dark Config.Params.reference.displayW Config.Params.reference.displayH
  mem := []
  key := none
  run := .running
  status := Config.freeStatus 0
  frame := none
  strobes := []
  policy := Config.Policy.reference
  params := Config.Params.reference
  choices := 1

end Sys2Proof.Machine
end

