-- ==== Sys2Proof/Machine/Ops.lean ====
section
/-! DEFINITION. The named operations over registers, memory, stack, display and status; entering an
error, and the reset, the only way out of one; the free choice. Every meaning is written over these. -/

namespace Sys2Proof.Machine

/-- What a step answers. -/
abbrev Result := Host.Outcome State Fault Refusal

/-! ### General registers (spec/10_state.md R20: none is hardwired) -/

/-- `V[x]` -/
def State.reg (s : State) (x : RegIdx) : Byte := s.V[x.toNat]'x.isLt

/-- `V[x] <- v` -/
def State.setReg (s : State) (x : RegIdx) (v : Byte) : State :=
  { s with V := s.V.set x.toNat v x.isLt }

/-- `VF` -/
abbrev regF : RegIdx := 0xF

/-- The values of `V0` to `V[x]`, ascending. -/
def State.regBlock (s : State) (x : RegIdx) : List Byte := s.V.toList.take (x.toNat + 1)

/-- `V[i] <- b`, `V[i+1] <- ...`, ascending. -/
def State.setRegBlock (s : State) (i : Nat) : List Byte → State
  | [] => s
  | b :: bs => (s.setReg (BitVec.ofNat 4 i) b).setRegBlock (i + 1) bs

/-! ### Memory as data (spec/20_memory.md R60, R64) -/

/-- What an address reads as while no cell is listed for it: the reset contents, the font at
`FONT_BASE` and 0x00 elsewhere (R64, R65). -/
def Memory.unlisted (p : Config.Params) (a : Nat) : Byte :=
  if p.fontBase ≤ a ∧ a < p.fontBase + p.fontSize then p.font.getD (a - p.fontBase) 0x00 else 0x00

/-- The byte at address `a`. -/
def Memory.read (p : Config.Params) : Memory → Nat → Byte
  | [], a => Memory.unlisted p a
  | c :: m, a => if c.1 = a then c.2 else Memory.read p m a

/-- List the cell `(a, v)` at its place in the rising order. -/
def Memory.insert : Memory → Nat → Byte → Memory
  | [], a, v => [(a, v)]
  | c :: m, a, v =>
    if a < c.1 then (a, v) :: c :: m
    else if a = c.1 then (a, v) :: m
    else c :: Memory.insert m a v

/-- Unlist address `a`. -/
def Memory.erase (m : Memory) (a : Nat) : Memory := m.filter fun c => c.1 != a

/-- Memory with byte `v` at address `a`; the value an unlisted address reads as is not listed. -/
def Memory.write (p : Config.Params) (m : Memory) (a : Nat) (v : Byte) : Memory :=
  if v = Memory.unlisted p a then m.erase a else m.insert a v

/-- The canonical form from address `lo` on: addresses rising and below `MEM_SIZE`, no cell equal to
what its address reads as unlisted. -/
def Memory.wfFrom (p : Config.Params) : Nat → Memory → Bool
  | _, [] => true
  | lo, c :: m =>
    decide (lo ≤ c.1) && decide (c.1 < Config.memSize) && (c.2 != Memory.unlisted p c.1) &&
      Memory.wfFrom p (c.1 + 1) m

/-- The canonical form: equal memories are equal lists. -/
def Memory.wf (p : Config.Params) (m : Memory) : Bool := Memory.wfFrom p 0 m

/-- An image laid out from address `a` on (R77). -/
def Memory.load (p : Config.Params) (m : Memory) (a : Nat) : List Byte → Memory
  | [] => m
  | b :: bs => (Memory.load p m (a + 1) bs).write p a b

/-- `mem[a]` -/
def State.byte (s : State) (a : Nat) : Byte := s.mem.read s.params a

/-- `mem[a] <- v` -/
def State.setByte (s : State) (a : Nat) (v : Byte) : State := { s with mem := s.mem.write s.params a v }

/-! ### Memory accesses (spec/20_memory.md R62, R63) -/

/-- The effective address of the natural number `a`. -/
def ea (p : Config.AddrPolicy) (a : Nat) : Except Fault Nat :=
  match p with
  | .mask => .ok (a % Config.memSize)
  | .fault => if a ≤ 0xFFF then .ok a else .error (.addressOutOfRange a)

/-- `MemRead(a, 1)` -/
def State.memRead (s : State) (a : Nat) : Except Fault Byte :=
  match ea s.policy.addr a with
  | .ok a' => .ok (s.byte a')
  | .error f => .error f

/-- `MemWrite(a, 1, v)` -/
def State.memWrite (s : State) (a : Nat) (v : Byte) : Except Fault State :=
  match ea s.policy.addr a with
  | .ok a' => .ok (s.setByte a' v)
  | .error f => .error f

/-- `n` bytes from address `a` on, ascending; each applies `ea` on its own. -/
def State.readBlock (s : State) (a : Nat) : Nat → Except Fault (List Byte)
  | 0 => .ok []
  | n + 1 =>
    match s.memRead a with
    | .error f => .error f
    | .ok b =>
      match s.readBlock (a + 1) n with
      | .error f => .error f
      | .ok bs => .ok (b :: bs)

/-- The bytes written from address `a` on, ascending; each applies `ea` on its own. -/
def State.writeBlock (s : State) (a : Nat) : List Byte → Except Fault State
  | [] => .ok s
  | b :: bs =>
    match s.memWrite a b with
    | .error f => .error f
    | .ok s' => s'.writeBlock (a + 1) bs

/-- The word at `ea(pc)`, `ea(pc+1)`, high byte first (R66). -/
def State.fetchWord (s : State) : Except Fault Word :=
  match s.memRead s.pc.toNat with
  | .error f => .error f
  | .ok hi =>
    match s.memRead (s.pc.toNat + 1) with
    | .error f => .error f
    | .ok lo => .ok (hi ++ lo)

/-- The instruction fetch (R68; priority by spec/60_exceptions.md R269): the alignment check of
ODD_PC_POLICY, then the word. -/
def State.fetch (s : State) : Except Fault Word :=
  if s.policy.oddPc = .fault ∧ s.pc.toNat % 2 = 1 then .error (.misalignedFetch s.pc)
  else s.fetchWord

/-! ### How a cycle ends (spec/40_cycle.md R121 to R125, R128) -/

/-- The default advance (R123), with the outputs of a cycle that executes an instruction and redraws
nothing: `status` ok(false), no frame. -/
def State.advance (s : State) : State :=
  { s with pc := s.pc + 2, status := .ok false, frame := none }

/-- `publish_frame()` and the status ok(true) (R128, spec/10_state.md R44, R45). -/
def State.publish (s : State) : State :=
  { s with frame := some s.disp, status := .ok true }

/-- A cycle of AwaitKeyInput with no key: `pc` stays, `status` waiting (spec/46_keypad.md R240). -/
def State.stall (s : State) : State := { s with status := .waiting, frame := none }

/-- Error entry (R125, spec/60_exceptions.md R266), from the state at the start of the cycle: nothing of
the cycle takes effect, `run` becomes Halted(e), `status` error(e), and no frame is published. -/
def State.raise (s : State) (e : Error) : State :=
  { s with run := .halted e, status := .error e, frame := none }

/-- A cycle while halted: it reports the error again (R122). -/
def State.reportHalt (s : State) (e : Error) : State := { s with status := .error e, frame := none }

/-- The outcome of a cycle whose data accesses may be a model fault; a fault keeps no partial write. -/
def ofAccess : Except Fault State → Result
  | .ok s => .next s
  | .error f => .fault f

/-- The outcome of a cycle that began in `s0` and may raise a fatal error. -/
def ofTrap (s0 : State) : Except Error State → Result
  | .ok s => .next s
  | .error e => .next (s0.raise e)

/-! ### Call stack (spec/10_state.md R25) -/

/-- `push(v)` -/
def State.push (s : State) (v : Word) : Except Error State :=
  if s.params.stackDepth ≤ s.stack.length then .error .stackOverflow
  else .ok { s with stack := s.stack ++ [v] }

/-- `pop()`: the last entry, and the state without it. -/
def State.pop (s : State) : Except Error (Word × State) :=
  match s.stack.getLast? with
  | none => .error .stackUnderflow
  | some v => .ok (v, { s with stack := s.stack.dropLast })

/-! ### Free choices (spec/44_random.md R210) -/

/-- `draw_byte()`: a free byte, and the state in which that choice has been taken. -/
def State.drawByte (s : State) : Byte × State :=
  (Config.drawByte s.choices, { s with choices := s.choices + 1 })

/-! ### Display (spec/45_display.md R215 to R217) -/

/-- `Disp[x, y]`; false outside the display. -/
def Display.pixel (d : Display) (x y : Nat) : Bool := (d.getD y []).getD x false

/-- The display has `h` rows of `w` pixels. -/
def Display.shaped (w h : Nat) (d : Display) : Bool :=
  decide (d.length = h) && d.all fun row => decide (row.length = w)

/-- `DispInvert(x, y)` (R217): the display with that pixel flipped, and the pixel's new value. -/
def Display.invert (d : Display) (x y : Nat) : Display × Bool :=
  let d' : Display := d.modify y fun row => row.modify x not
  (d', d'.pixel x y)

/-- One bit of a sprite row drawn at column `cx + b` of row `py` on a display `w` wide (R219, R222): a set
bit inverts its pixel, and going from lit to unlit is a collision (R221). The pair is the display and
the collision seen so far. -/
def drawBit (w : Nat) (row : Byte) (cx py : Nat) (acc : Display × Bool) (b : Nat) : Display × Bool :=
  if row.getLsbD (7 - b) then
    let r := acc.1.invert ((cx + b) % w) py
    (r.1, acc.2 || !r.2)
  else acc

/-- The eight bits of one sprite row, the most significant first. -/
def drawRow (w : Nat) (row : Byte) (cx py : Nat) (acc : Display × Bool) : Display × Bool :=
  (List.range 8).foldl (drawBit w row cx py) acc

/-- The rows of a sprite on a display of `w` x `h` pixels, the first at row `cy` (R219, R220). -/
def drawRows (w h cx : Nat) : Nat → List Byte → Display × Bool → Display × Bool
  | _, [], acc => acc
  | cy, row :: rows, acc => drawRows w h cx (cy + 1) rows (drawRow w row cx (cy % h) acc)

/-! ### The environment's strobes other than `cycle` -/

/-- A timer's decrement, saturating at 0 (spec/60_exceptions.md R270). -/
def decrement (t : Byte) : Byte := if t = 0 then 0 else t - 1

/-- `tick()` (R270), in every run state. -/
def State.tick (s : State) : State := { s with DT := decrement s.DT, ST := decrement s.ST }

/-- `key_in` (spec/10_state.md R42): the latch takes the value. -/
def State.keyIn (s : State) (k : Option Key) : State := { s with key := k }

/-- `reset(image)` (spec/70_reset_and_hazards.md R290 to R292), the only way out of Halted
(spec/60_exceptions.md R272). What the environment has settled to send (`strobes`), the configuration
(`policy`, `params`) and the count of free choices are no state of the block and outlive it; the
undefined status takes a fresh free choice. -/
def State.resetWith (s : State) (image : List Byte) : State :=
  let z : State :=
    { State.reset with
      pc := BitVec.ofNat 16 s.params.programBase
      disp := Display.dark s.params.displayW s.params.displayH
      status := Config.freeStatus s.choices
      choices := s.choices + 1
      strobes := s.strobes
      policy := s.policy
      params := s.params }
  if s.params.maxImage < image.length then
    { z with run := .halted .loadTooLarge, status := .error .loadTooLarge }
  else { z with mem := Memory.load s.params z.mem s.params.programBase image }

/-- The environment's next strobe, and the state in which it is taken: the first of the settled ones, else
a free choice (spec/40_cycle.md R120, spec/10_state.md R47; assumption log 1). -/
def State.takeStrobe (s : State) : Strobe × State :=
  match s.strobes with
  | b :: rest => (b, { s with strobes := rest })
  | [] => (Config.strobe s.choices, { s with choices := s.choices + 1 })

end Sys2Proof.Machine
end

