-- ==== Sys2Proof/Machine/Flags.lean ====
section
/-! DEFINITION. The one flag, `VF`: how each flag instruction computes it, and how result and flag are
written (spec/42_arithmetic.md R161 to R166; spec/45_display.md R221). -/

namespace Sys2Proof.Machine

/-- A flag as the byte 0 or 1. -/
def flagByte (b : Bool) : Byte := if b then 1 else 0

/-- Carry of Add: the wide sum passes 255 (R162). -/
def carryFlag (a b : Byte) : Byte := flagByte (decide (255 < a.toNat + b.toNat))

/-- Not-borrow of `a - b` (R163, R164): 1 when no borrow. -/
def noBorrowFlag (a b : Byte) : Byte := flagByte (decide (b.toNat ≤ a.toNat))

/-- The bit RightShift shifts out (R165). -/
def lsbFlag (a : Byte) : Byte := a &&& 0x01

/-- The bit LeftShift shifts out (R166). -/
def msbFlag (a : Byte) : Byte := (a >>> 7) &&& 0x01

/-- `set_result_flag(x, r, f)` (R161); `t` is the instruction's `alias_text(r, f)`. With destination `VF`
the value left is VF_ALIAS_POLICY's, under `draw` a free byte (assumption log 5). -/
def State.setResultFlag (s : State) (x : RegIdx) (r f t : Byte) : State :=
  if x ≠ regF then (s.setReg x r).setReg regF f
  else
    match s.policy.vfAlias with
    | .draw => s.drawByte.2.setReg regF s.drawByte.1
    | .flagLast => s.setReg regF f
    | .textOrder => s.setReg regF t

end Sys2Proof.Machine
end

