-- ==== Sys2Proof/Machine/Operands.lean ====
section
/-! DEFINITION. The operand forms (spec/30_encoding.md R92): registers by field are `State.reg`;
immediates and addresses are zero-extended; memory operands go through `I`; conditions of skips. -/

namespace Sys2Proof.Machine

/-- `zext_16(nnn)` -/
def zextAddr (nnn : Addr) : Word := nnn.setWidth 16

/-- `zext_16(b)` of a byte -/
def zextByte (b : Byte) : Word := b.setWidth 16

/-- The address of data access 0, as a natural number (spec/43_memory_index.md R190): access `i` is at
this plus `i`. -/
def State.dataBase (s : State) : Nat := s.I.toNat

/-- A key identifier as a byte, 0x00 to 0x0F (spec/46_keypad.md R240). -/
def keyByte (k : Key) : Byte := k.setWidth 8

/-- `pressed(v)` (R235): the latch holds the key that is the low nibble of `v`. -/
def State.pressed (s : State) (v : Byte) : Bool :=
  match s.key with
  | none => false
  | some k => keyByte k = v &&& 0x0F

/-- A skip: two more bytes when the condition holds (spec/41_control_flow.md R149). -/
def State.skipIf (s : State) (c : Bool) : State := if c then { s with pc := s.pc + 2 } else s

/-- The three decimal digits of a byte, hundreds first (spec/43_memory_index.md R194). -/
def bcdDigits (a : Byte) : List Byte := [a / 100, a / 10 % 10, a % 10]

/-- The address of the glyph for the low nibble of a byte (R193). -/
def glyphAddress (p : Config.Params) (v : Byte) : Word :=
  BitVec.ofNat 16 (p.fontBase + p.glyphSize * (v &&& 0x0F).toNat)

/-- `I` after a block transfer of `V0` to `V[x]`, by LOADSTORE_I (R197). -/
def State.stepIndex (s : State) (x : RegIdx) : State :=
  match s.policy.loadStoreI with
  | .unchanged => s
  | .xPlusOne => { s with I := s.I + BitVec.ofNat 16 (x.toNat + 1) }

end Sys2Proof.Machine
end

