-- ==== Sys2Proof/Machine/Arith.lean ====
section
/-! DEFINITION. Arithmetic, bitwise, immediate and copy instructions (spec/42_arithmetic.md). Operands
are read from the state at the start of the cycle (spec/00_scope.md R12). -/

namespace Sys2Proof.Machine

/-- 8XY4 (R162) -/
def execAdd (x y : RegIdx) (s : State) : Result :=
  let f := carryFlag (s.reg x) (s.reg y)
  .next (s.advance.setResultFlag x (s.reg x + s.reg y) f f)

/-- 8XY5 (R163) -/
def execSubtract (x y : RegIdx) (s : State) : Result :=
  let f := noBorrowFlag (s.reg x) (s.reg y)
  .next (s.advance.setResultFlag x (s.reg x - s.reg y) f f)

/-- 8XY7 (R164) -/
def execSetVxToVyMinusVx (x y : RegIdx) (s : State) : Result :=
  let f := noBorrowFlag (s.reg y) (s.reg x)
  .next (s.advance.setResultFlag x (s.reg y - s.reg x) f f)

/-- 8XY6 (R165); `alias_text` is `f >> 1`. -/
def execRightShift (x : RegIdx) (s : State) : Result :=
  let f := lsbFlag (s.reg x)
  .next (s.advance.setResultFlag x (s.reg x >>> 1) f (f >>> 1))

/-- 8XYE (R166); `alias_text` is `(f << 1) mod 256`. -/
def execLeftShift (x : RegIdx) (s : State) : Result :=
  let f := msbFlag (s.reg x)
  .next (s.advance.setResultFlag x (s.reg x <<< 1) f (f <<< 1))

/-- 8XY1 (R167) -/
def execOr (x y : RegIdx) (s : State) : Result := .next (s.advance.setReg x (s.reg x ||| s.reg y))

/-- 8XY2 (R168) -/
def execAnd (x y : RegIdx) (s : State) : Result := .next (s.advance.setReg x (s.reg x &&& s.reg y))

/-- 8XY3 (R169) -/
def execXor (x y : RegIdx) (s : State) : Result := .next (s.advance.setReg x (s.reg x ^^^ s.reg y))

/-- 6XNN (R170) -/
def execSetImmediate (x : RegIdx) (nn : Byte) (s : State) : Result := .next (s.advance.setReg x nn)

/-- 7XNN (R171): no flag. -/
def execAddImmediate (x : RegIdx) (nn : Byte) (s : State) : Result :=
  .next (s.advance.setReg x (s.reg x + nn))

/-- 8XY0 (R172) -/
def execCopy (x y : RegIdx) (s : State) : Result := .next (s.advance.setReg x (s.reg y))

end Sys2Proof.Machine
end

