-- ==== Sys2Proof/Machine/Control.lean ====
section
/-! DEFINITION. Jumps, call, return and the skips on register values (spec/41_control_flow.md). -/

namespace Sys2Proof.Machine

/-- 1NNN (R141) -/
def execJump (nnn : Addr) (s : State) : Result := .next { s.advance with pc := zextAddr nnn }

/-- 2NNN (R142): the advanced `pc` is pushed. -/
def execCall (nnn : Addr) (s : State) : Result :=
  ofTrap s <|
    match s.advance.push s.advance.pc with
    | .error e => .error e
    | .ok t => .ok { t with pc := zextAddr nnn }

/-- 00EE (R143) -/
def execReturn (s : State) : Result :=
  ofTrap s <|
    match s.advance.pop with
    | .error e => .error e
    | .ok (v, t) => .ok { t with pc := v }

/-- BNNN (R144): the offset is `V0`, and the sum wraps at 16 bits. -/
def execJumpWithPcOffset (nnn : Addr) (s : State) : Result :=
  .next { s.advance with pc := zextAddr nnn + zextByte (s.reg 0x0) }

/-- 3XNN (R145) -/
def execSkipIfVxEqualsNn (x : RegIdx) (nn : Byte) (s : State) : Result :=
  .next (s.advance.skipIf (s.reg x == nn))

/-- 4XNN (R146) -/
def execSkipIfVxNotEqualsNn (x : RegIdx) (nn : Byte) (s : State) : Result :=
  .next (s.advance.skipIf (s.reg x != nn))

/-- 5XY0 (R147) -/
def execSkipIfVxEqualsVy (x y : RegIdx) (s : State) : Result :=
  .next (s.advance.skipIf (s.reg x == s.reg y))

/-- 9XY0 (R148) -/
def execSkipIfVxNotEqualsVy (x y : RegIdx) (s : State) : Result :=
  .next (s.advance.skipIf (s.reg x != s.reg y))

end Sys2Proof.Machine
end

