-- ==== Sys2Proof/Machine/Index.lean ====
section
/-! DEFINITION. Index register, font, BCD and register-block transfer (spec/43_memory_index.md). -/

namespace Sys2Proof.Machine

/-- ANNN (R191) -/
def execSetIndexRegister (nnn : Addr) (s : State) : Result := .next { s.advance with I := zextAddr nnn }

/-- FX1E (R192): no flag. -/
def execAddToIndex (x : RegIdx) (s : State) : Result :=
  .next { s.advance with I := s.I + zextByte (s.reg x) }

/-- FX29 (R193) -/
def execSetIndexToFontCharacter (x : RegIdx) (s : State) : Result :=
  .next { s.advance with I := glyphAddress s.params (s.reg x) }

/-- FX33 (R194): `I` is unchanged. -/
def execSetIndexToBinaryCodedVx (x : RegIdx) (s : State) : Result :=
  ofAccess (s.advance.writeBlock s.dataBase (bcdDigits (s.reg x)))

/-- FX55 (R195, R197) -/
def execDumpRegisters (x : RegIdx) (s : State) : Result :=
  ofAccess <|
    match s.advance.writeBlock s.dataBase (s.regBlock x) with
    | .error f => .error f
    | .ok t => .ok (t.stepIndex x)

/-- FX65 (R196, R197) -/
def execLoadRegisters (x : RegIdx) (s : State) : Result :=
  ofAccess <|
    match s.readBlock s.dataBase (x.toNat + 1) with
    | .error f => .error f
    | .ok bs => .ok ((s.advance.setRegBlock 0 bs).stepIndex x)

end Sys2Proof.Machine
end

