-- ==== Sys2Proof/Machine/Keypad.lean ====
section
/-! DEFINITION. Keypad instructions (spec/46_keypad.md). The latch is read as it stands at the start of
the cycle (spec/40_cycle.md R129) and never consumed. -/

namespace Sys2Proof.Machine

/-- EX9E (R236) -/
def execSkipIfKeyPressed (x : RegIdx) (s : State) : Result :=
  .next (s.advance.skipIf (s.pressed (s.reg x)))

/-- EXA1 (R237) -/
def execSkipIfKeyNotPressed (x : RegIdx) (s : State) : Result :=
  .next (s.advance.skipIf (!s.pressed (s.reg x)))

/-- FX0A (R240): with no key the cycle ends where it began. -/
def execAwaitKeyInput (x : RegIdx) (s : State) : Result :=
  match s.key with
  | none => .next s.stall
  | some k => .next (s.advance.setReg x (keyByte k))

end Sys2Proof.Machine
end

