-- ==== Sys2Proof/Machine/Random.lean ====
section
/-! DEFINITION. Random (spec/44_random.md). -/

namespace Sys2Proof.Machine

/-- CXNN (R211): a free byte, masked. -/
def execRandom (x : RegIdx) (nn : Byte) (s : State) : Result :=
  .next (s.advance.drawByte.2.setReg x (s.advance.drawByte.1 &&& nn))

end Sys2Proof.Machine
end

