-- ==== Sys2Proof/Machine/Screen.lean ====
section
/-! DEFINITION. Clear and Draw (spec/45_display.md). -/

namespace Sys2Proof.Machine

/-- 00E0 (R218): every pixel 0; a frame is published. -/
def execClear (s : State) : Result :=
  .next { s.advance with disp := Display.dark s.params.displayW s.params.displayH }.publish

/-- DXYN (R220): the sprite's bytes are read from `I` on, drawn at the latched coordinates, `VF` takes the
collision flag, and a frame is published. -/
def execDraw (x y : RegIdx) (n : BitVec 4) (s : State) : Result :=
  ofAccess <|
    match s.readBlock s.dataBase n.toNat with
    | .error f => .error f
    | .ok rows =>
      let dc := drawRows s.params.displayW s.params.displayH (s.reg x).toNat (s.reg y).toNat rows
        (s.disp, false)
      .ok ({ s.advance with disp := dc.1 }.setReg regF (flagByte dc.2)).publish

end Sys2Proof.Machine
end

