-- ==== Sys2Proof/Machine/Timers.lean ====
section
/-! DEFINITION. Timer instructions (spec/47_timers.md). The timers' decrement is `State.tick`. -/

namespace Sys2Proof.Machine

/-- FX07 (R250) -/
def execSetVxToDelayTimer (x : RegIdx) (s : State) : Result := .next (s.advance.setReg x s.DT)

/-- FX15 (R251) -/
def execSetDelayTimer (x : RegIdx) (s : State) : Result := .next { s.advance with DT := s.reg x }

/-- FX18 (R252) -/
def execSetSoundTimer (x : RegIdx) (s : State) : Result := .next { s.advance with ST := s.reg x }

end Sys2Proof.Machine
end

