-- ==== Sys2Proof/Machine/Trap.lean ====
section
/-! DEFINITION. The row 0NNN (spec/60_exceptions.md R261). -/

namespace Sys2Proof.Machine

/-- 0NNN: raises IncompatibleProgram, which records no operand; `pc` stays (R261, R266). -/
def execIncompatibleProgram (s : State) : Result := .next (s.raise .incompatibleProgram)

end Sys2Proof.Machine
end

