-- ==== Sys2Proof/Machine/Dispatch.lean ====
section
/-! DEFINITION. `execute` of spec/40_cycle.md R121: the effect of one decoded instruction on the state
at the start of its cycle (`pc` is the instruction's own address), default advance, status and frame
included. -/

namespace Sys2Proof.Machine

def exec (i : Instr) (s : State) : Host.Outcome State Fault Refusal :=
  match i with
  | .clear => Sys2Proof.Machine.execClear s
  | .ret => Sys2Proof.Machine.execReturn s
  | .incompatibleProgram _ => Sys2Proof.Machine.execIncompatibleProgram s
  | .jump nnn => Sys2Proof.Machine.execJump nnn s
  | .call nnn => Sys2Proof.Machine.execCall nnn s
  | .skipIfVxEqualsNn x nn => Sys2Proof.Machine.execSkipIfVxEqualsNn x nn s
  | .skipIfVxNotEqualsNn x nn => Sys2Proof.Machine.execSkipIfVxNotEqualsNn x nn s
  | .skipIfVxEqualsVy x y => Sys2Proof.Machine.execSkipIfVxEqualsVy x y s
  | .setImmediate x nn => Sys2Proof.Machine.execSetImmediate x nn s
  | .addImmediate x nn => Sys2Proof.Machine.execAddImmediate x nn s
  | .copy x y => Sys2Proof.Machine.execCopy x y s
  | .or x y => Sys2Proof.Machine.execOr x y s
  | .and x y => Sys2Proof.Machine.execAnd x y s
  | .xor x y => Sys2Proof.Machine.execXor x y s
  | .add x y => Sys2Proof.Machine.execAdd x y s
  | .subtract x y => Sys2Proof.Machine.execSubtract x y s
  | .rightShift x _ => Sys2Proof.Machine.execRightShift x s
  | .setVxToVyMinusVx x y => Sys2Proof.Machine.execSetVxToVyMinusVx x y s
  | .leftShift x _ => Sys2Proof.Machine.execLeftShift x s
  | .skipIfVxNotEqualsVy x y => Sys2Proof.Machine.execSkipIfVxNotEqualsVy x y s
  | .setIndexRegister nnn => Sys2Proof.Machine.execSetIndexRegister nnn s
  | .jumpWithPcOffset nnn => Sys2Proof.Machine.execJumpWithPcOffset nnn s
  | .random x nn => Sys2Proof.Machine.execRandom x nn s
  | .draw x y n => Sys2Proof.Machine.execDraw x y n s
  | .skipIfKeyPressed x => Sys2Proof.Machine.execSkipIfKeyPressed x s
  | .skipIfKeyNotPressed x => Sys2Proof.Machine.execSkipIfKeyNotPressed x s
  | .setVxToDelayTimer x => Sys2Proof.Machine.execSetVxToDelayTimer x s
  | .awaitKeyInput x => Sys2Proof.Machine.execAwaitKeyInput x s
  | .setDelayTimer x => Sys2Proof.Machine.execSetDelayTimer x s
  | .setSoundTimer x => Sys2Proof.Machine.execSetSoundTimer x s
  | .addToIndex x => Sys2Proof.Machine.execAddToIndex x s
  | .setIndexToFontCharacter x => Sys2Proof.Machine.execSetIndexToFontCharacter x s
  | .setIndexToBinaryCodedVx x => Sys2Proof.Machine.execSetIndexToBinaryCodedVx x s
  | .dumpRegisters x => Sys2Proof.Machine.execDumpRegisters x s
  | .loadRegisters x => Sys2Proof.Machine.execLoadRegisters x s

end Sys2Proof.Machine
end

