-- ==== Sys2Proof/Machine/Cycle.lean ====
section
/-! DEFINITION. One cycle (spec/40_cycle.md R121), one strobe of the environment (R120), and how a word
is placed where the next step fetches it. -/

namespace Sys2Proof.Machine

/-- A cycle while Running (R121, R124): fetch, decode, execute. -/
def State.runCycle (s : State) : Result :=
  match s.fetch with
  | .error f => .fault f
  | .ok op =>
    match decode s.policy.lowNibble op with
    | .error e => .next (s.raise e)
    | .ok i => exec i s

/-- `cycle()` (R121, R122). -/
def State.cycle (s : State) : Result :=
  match s.run with
  | .halted e => .next (s.reportHalt e)
  | .running => s.runCycle

/-- What one strobe does (R120). -/
def State.strobe (s : State) : Strobe → Result
  | .cycle => s.cycle
  | .tick => .next s.tick
  | .keyIn k => .next (s.keyIn k)
  | .reset image => .next (s.resetWith image)

/-- The block's next step: the environment's next strobe acts on the state in which it is taken. -/
def State.nextStep (s : State) : Result := s.takeStrobe.2.strobe s.takeStrobe.1

/-- The settled strobes with a cycle first. -/
def cycleFirst : List Strobe → List Strobe
  | .cycle :: rest => .cycle :: rest
  | l => .cycle :: l

/-- The state with the word `op` at `pc` (high byte first, each address by the mask of
spec/20_memory.md R62), Running, and a cycle as the next strobe: what the host's image load and reset
amount to for one instruction (assumption log 2). -/
def State.placeWord (s : State) (op : Word) : State :=
  let t := s.setByte (s.pc.toNat % Config.memSize) (bytesOfWord op).1
  { t.setByte ((s.pc.toNat + 1) % Config.memSize) (bytesOfWord op).2 with
    run := .running
    strobes := cycleFirst s.strobes }

end Sys2Proof.Machine
end

