-- ==== Sys2Proof/Machine/Step.lean ====
section
/-! DEFINITION. The step: one strobe of the environment (spec/00_scope.md R6, spec/40_cycle.md R120). -/

namespace Sys2Proof.Machine

/-- One step of the block. -/
def step (s : State) : Host.Outcome State Fault Refusal := s.nextStep

/-- The state whose next step fetches and runs the instruction word `w`, numbered as
spec/opcode_table.json numbers it. -/
def State.withFetchWord (s : State) (nbits w : Nat) : State := s.placeWord (wordOfTable nbits w)

end Sys2Proof.Machine
end

