-- ==== Sys2Proof/Machine/Ports.lean ====
section
/-! DEFINITION. The output ports as the platform reads them (spec/10_state.md R44 to R46;
spec/60_exceptions.md R267). -/

namespace Sys2Proof.Machine

/-- A pixel as the byte 0 or 1. -/
def pixelByte (lit : Bool) : Byte := if lit then 1 else 0

/-- A snapshot as bytes, one per pixel, row-major from the top left (R44). -/
def Display.bytes (d : Display) : List Byte := (d.map fun row => row.map pixelByte).flatten

/-- The `frame` port: the bytes strobed with `frame_valid` by the last cycle, if it strobed any. -/
def State.framePort (s : State) : Option (List Byte) := s.frame.map Display.bytes

/-- The `sound` port (R46). -/
def State.soundPort (s : State) : Byte := s.ST

/-- The code of an error (R267). -/
def Error.code : Error → Nat
  | .incompatibleProgram => 1
  | .malformedInstruction _ => 2
  | .stackOverflow => 3
  | .stackUnderflow => 4
  | .loadTooLarge => 5

/-- The status port's code (R267): 0 when there is no error. -/
def Status.code : Status → Nat
  | .ok _ => 0
  | .waiting => 0
  | .error e => e.code

/-- The status port's info word (R267): the raw opcode of MalformedInstruction, else none. -/
def Status.info : Status → Option Word
  | .error (.malformedInstruction op) => some op
  | _ => none

end Sys2Proof.Machine
end

