-- ==== Sys2Proof/Safety.lean ====
section
/-! DEFINITION. The terms claims use: the classification of states of spec/60_exceptions.md R284, and the
invariant every step keeps. -/

namespace Sys2Proof.Machine

/-- The word at `ea(pc)`, `ea(pc+1)` decodes to `i`. Whether a fetch at an odd `pc` is stopped
(ODD_PC_POLICY) is no part of it. -/
def State.atInstr (s : State) (i : Instr) : Prop :=
  ∃ op, s.fetchWord = .ok op ∧ decode s.policy.lowNibble op = .ok i

/-- R284 "faulted", for a state. -/
def State.faulted (s : State) : Prop := ∃ e, s.run = .halted e

/-- R284 "faulted", for what a step answers: a halted next state, or a model fault. -/
def resultFaulted : Result → Prop
  | .next t => t.faulted
  | .fault _ => True
  | .refused _ => False

/-- R284 "waiting", with the Running of spec/10_state.md R33: the word at `pc` decodes to AwaitKeyInput. -/
def State.waiting (s : State) : Prop := s.run = .running ∧ ∃ x, s.atInstr (.awaitKeyInput x)

/-- R284 "ended": Running, and the word at `pc` is a jump to itself. -/
def State.ended (s : State) : Prop :=
  s.run = .running ∧ ∃ nnn, s.atInstr (.jump nnn) ∧ zextAddr nnn = s.pc

/-- The invariant of the machine: parameters that make a machine; memory in canonical form (so equal
memories are equal lists); the call stack within its capacity (spec/10_state.md R25); the display of
`DISPLAY_H` rows of `DISPLAY_W` pixels (R29); a published frame is the display as it stands, and
only a redrawing cycle publishes one (R44, R45); while Halted the status port reports that error
(spec/40_cycle.md R122, R125). -/
structure State.Inv (s : State) : Prop where
  params_wf : s.params.wf = true
  mem_wf : s.mem.wf s.params = true
  stack_bounded : s.stack.length ≤ s.params.stackDepth
  disp_shaped : s.disp.shaped s.params.displayW s.params.displayH = true
  frame_current : ∀ d, s.frame = some d → d = s.disp ∧ s.status = .ok true
  halt_reported : ∀ e, s.run = .halted e → s.status = .error e

/-! ### Frames -/

/-- The pieces of state a frame speaks of: each register, pixel and byte of memory is one of its own, and
so are the lengths of the display's rows. -/
inductive Piece where
  | reg (r : RegIdx)
  | I
  | pc
  | stack
  | DT
  | ST
  | pixel (px py : Nat)
  | shape
  | byte (a : Nat)
  | key
  | run
  | status
  | frame
  | strobes
  | policy
  | params
  | choices
  deriving DecidableEq, Repr

/-- The piece holds the same in `t` as in `s`. -/
def Piece.same (s t : State) : Piece → Prop
  | .reg r => t.reg r = s.reg r
  | .I => t.I = s.I
  | .pc => t.pc = s.pc
  | .stack => t.stack = s.stack
  | .DT => t.DT = s.DT
  | .ST => t.ST = s.ST
  | .pixel px py => t.disp.pixel px py = s.disp.pixel px py
  | .shape => t.disp.map List.length = s.disp.map List.length
  | .byte a => t.byte a = s.byte a
  | .key => t.key = s.key
  | .run => t.run = s.run
  | .status => t.status = s.status
  | .frame => t.frame = s.frame
  | .strobes => t.strobes = s.strobes
  | .policy => t.policy = s.policy
  | .params => t.params = s.params
  | .choices => t.choices = s.choices

/-- Every piece of state but those of `P` holds the same in `t` as in `s`. -/
def SameBut (P : Piece → Prop) (s t : State) : Prop := ∀ p, ¬ P p → p.same s t

/-- Every piece of state but the listed ones holds the same in `t` as in `s`. -/
def SameButList (l : List Piece) (s t : State) : Prop := SameBut (· ∈ l) s t

/-- `t` ends a cycle that began in `s` and executed an instruction that neither transfers control nor
redraws: `pc` two further, status ok(false), no frame (spec/40_cycle.md R121, R123). -/
def Advanced (s t : State) : Prop := t.pc = s.pc + 2 ∧ t.status = .ok false ∧ t.frame = none

/-- The result and the flag of a flag instruction with destination `x` (spec/42_arithmetic.md R161): `r`
and `f` are its result and flag, `al` its `alias_text`. With destination `VF` the value is
VF_ALIAS_POLICY's; under `draw` it is a free byte, and one free choice is taken. -/
def SetsResultAndFlag (s t : State) (x : RegIdx) (r f al : Byte) : Prop :=
  (x ≠ 0xF → t.reg x = r ∧ t.reg 0xF = f ∧ t.choices = s.choices) ∧
  (x = 0xF →
    match s.policy.vfAlias with
    | .draw => t.reg 0xF = Config.drawByte s.choices ∧ t.choices = s.choices + 1
    | .flagLast => t.reg 0xF = f ∧ t.choices = s.choices
    | .textOrder => t.reg 0xF = al ∧ t.choices = s.choices)

/-- The next strobe is a cycle. -/
def State.cycleNext (s : State) : Prop := s.takeStrobe.1 = .cycle

/-- No policy stops the fetch at `pc` (spec/20_memory.md R62, R68). -/
def State.fetchable (s : State) : Prop :=
  (s.policy.oddPc = .fetch ∨ s.pc.toNat % 2 = 0) ∧
    (s.policy.addr = .mask ∨ s.pc.toNat + 2 ≤ Config.memSize)

/-- The word at `pc`, the high byte at the lower address (spec/20_memory.md R66). -/
def State.wordAtPc (s : State) : Word :=
  s.byte (s.pc.toNat % Config.memSize) ++ s.byte ((s.pc.toNat + 1) % Config.memSize)

/-- The latch holds the key named by the low nibble of `V[x]` (spec/46_keypad.md R235). -/
def State.holdsKey (s : State) (x : RegIdx) : Prop :=
  ∃ k, s.key = some k ∧ k.toNat = (s.reg x).toNat % 16

/-- The registers the table of spec/10_state.md R21 lists as written by an instruction. -/
def writesReg : Instr → RegIdx → Prop
  | .setImmediate x _, r | .addImmediate x _, r | .copy x _, r | .or x _, r | .and x _, r
  | .xor x _, r | .random x _, r | .setVxToDelayTimer x, r | .awaitKeyInput x, r => r = x
  | .add x _, r | .subtract x _, r | .setVxToVyMinusVx x _, r | .rightShift x _, r
  | .leftShift x _, r => r = x ∨ r = 0xF
  | .draw _ _ _, r => r = 0xF
  | .loadRegisters x, r => r.toNat ≤ x.toNat
  | .clear, _ | .ret, _ | .incompatibleProgram _, _ | .jump _, _ | .call _, _
  | .skipIfVxEqualsNn _ _, _ | .skipIfVxNotEqualsNn _ _, _ | .skipIfVxEqualsVy _ _, _
  | .skipIfVxNotEqualsVy _ _, _ | .setIndexRegister _, _ | .jumpWithPcOffset _, _
  | .skipIfKeyPressed _, _ | .skipIfKeyNotPressed _, _ | .setDelayTimer _, _
  | .setSoundTimer _, _ | .addToIndex _, _ | .setIndexToFontCharacter _, _
  | .setIndexToBinaryCodedVx _, _ | .dumpRegisters _, _ => False

/-- Clear and Draw. -/
def redraws : Instr → Prop
  | .clear | .draw _ _ _ => True
  | _ => False

/-- `n` bytes from the natural-number address `a` on can be accessed without a model fault
(spec/20_memory.md R62). -/
def State.addressable (s : State) (a n : Nat) : Prop :=
  s.policy.addr = .mask ∨ a + n ≤ Config.memSize

/-- The pixel is under a set bit of the sprite of `n` rows at `I` drawn at `(V[x], V[y])`
(spec/45_display.md R219). -/
def State.spriteCovers (s : State) (x y : RegIdx) (n px py : Nat) : Prop :=
  ∃ r < n, ∃ b < 8,
    (s.byte ((s.I.toNat + r) % Config.memSize)).getLsbD (7 - b) = true ∧
      px = ((s.reg x).toNat + b) % s.params.displayW ∧
      py = ((s.reg y).toNat + r) % s.params.displayH

/-- The pixels at which the sprite of `n` rows at `I` drawn at `(V[x], V[y])` calls DispInvert, in order
(R219, R220). On a display narrower or lower than the sprite a pixel can occur more than once. -/
def State.spriteHits (s : State) (x y : RegIdx) (n : Nat) : List (Nat × Nat) :=
  (List.range n).flatMap fun r =>
    ((List.range 8).filter fun b =>
      (s.byte ((s.I.toNat + r) % Config.memSize)).getLsbD (7 - b)).map fun b =>
        (((s.reg x).toNat + b) % s.params.displayW, ((s.reg y).toNat + r) % s.params.displayH)

/-- The pixel goes from lit to unlit at some time while the sprite is drawn (R221): it is met and was lit,
or it is met twice. -/
def State.spriteCollides (s : State) (x y : RegIdx) (n px py : Nat) : Prop :=
  let k := (s.spriteHits x y n).count (px, py)
  (1 ≤ k ∧ s.disp.pixel px py = true) ∨ 2 ≤ k

/-- The display is at least as wide and as high as a sprite of `n` rows, so that no pixel is met twice. -/
def State.spriteFits (s : State) (n : Nat) : Prop :=
  8 ≤ s.params.displayW ∧ n ≤ s.params.displayH

/-- The display has the rows and columns of the parameters, and these make a machine. -/
def State.dispOk (s : State) : Prop :=
  s.params.wf = true ∧ s.disp.shaped s.params.displayW s.params.displayH = true

/-! ### Addresses modulo the size of memory (spec/10_state.md R26) -/

/-- The two words are the same address modulo the size of memory. -/
def sameAddress (v w : Word) : Prop := v.toNat % Config.memSize = w.toNat % Config.memSize

/-- The states agree but for `pc`, `I` and the stack entries, which agree modulo the size of memory. -/
structure SameModuloMemSize (s t : State) : Prop where
  pc : sameAddress s.pc t.pc
  I : sameAddress s.I t.I
  stack : List.Forall₂ sameAddress s.stack t.stack
  rest : t = { s with pc := t.pc, I := t.I, stack := t.stack }

end Sys2Proof.Machine
end

