-- ==== Sys2Proof/Certificates/Slice0/Obligations.lean ====
section
/-! DEFINITION. The statements for the provers. Each docstring names the rule of spec/ it formalises.
`∃ t, exec i s = .next t ∧ …` says that the instruction completes; `SameButList l s t` is its frame. -/

open Sys2Proof Sys2Proof.Machine

/-! ### Encoding and decoding -/

/-- Words of spec/95_test_vectors.md L1-1 to L1-3, L1-8 and L2-E (E1, E9, E11, E13, E15), as the decoder
reads them under the reference policy. Two clauses are the model's own in part: that 0x0123 decodes to an
instruction of the row 0NNN, where L1-2 and R96 have the decoder answer the error IncompatibleProgram
(assumption log 8); and the ignored field that the two shifts keep, the `2` of 0x8126, which L1-1 marks as
ignored, and the second `0xF` of 0x8FFE, which E9 does not name (assumption log 14). -/
def Obligations.SpecWordsDecode : Prop :=
  decodeTableWord 16 0x00E0 = some .clear ∧ decodeTableWord 16 0x00EE = some .ret ∧
  decodeTableWord 16 0x0123 = some (.incompatibleProgram 0x123) ∧
  decodeTableWord 16 0x1ABC = some (.jump 0xABC) ∧
  decodeTableWord 16 0x6005 = some (.setImmediate 0 5) ∧
  decodeTableWord 16 0x7003 = some (.addImmediate 0 3) ∧
  decodeTableWord 16 0x8124 = some (.add 1 2) ∧
  decodeTableWord 16 0x8126 = some (.rightShift 1 2) ∧ decodeTableWord 16 0x8128 = none ∧
  decodeTableWord 16 0x8FFE = some (.leftShift 0xF 0xF) ∧
  decodeTableWord 16 0x5121 = some (.skipIfVxEqualsVy 1 2) ∧
  decodeTableWord 16 0xABCD = some (.setIndexRegister 0xBCD) ∧
  decodeTableWord 16 0xD120 = some (.draw 1 2 0) ∧
  decodeTableWord 16 0xEF9E = some (.skipIfKeyPressed 0xF) ∧
  decodeTableWord 16 0xF355 = some (.dumpRegisters 3)

/-- R93, R94, R100: decoding the encoded word of any well-formed instruction gives it back, under either
setting of LOW_NIBBLE_5_9, and so does decoding its two bytes at the front of any bytes. That the row 0NNN
is among the instructions, and that the shifts keep their ignored `y`, is the model's own (assumption logs
8 and 14). -/
def Obligations.DecodeOfEncode : Prop :=
  ∀ (p : Config.LowNibblePolicy) (i : Instr), wellFormed i = true →
    decode p (encode i) = .ok i ∧
    ∀ rest, decodeBytes p (encodeBytes i ++ rest) = .ok (i, rest)

/-- R94, R98: whatever a word decodes to is well formed and encodes back to it, less the low nibble of
the words of selectors 5 and 9, which is not part of the instruction. That 8XY6 and 8XYE encode back with
their `y` is the model's own: its decoder keeps the ignored field (assumption log 14), which R94's
RightShift(x) and LeftShift(x) do not name. -/
def Obligations.DecodedWordEncodesBack : Prop :=
  ∀ (p : Config.LowNibblePolicy) (op : Word) (i : Instr), decode p op = .ok i →
    wellFormed i = true ∧
    encode i =
      if op.toNat / 4096 = 5 ∨ op.toNat / 4096 = 9 then BitVec.ofNat 16 (op.toNat / 16 * 16) else op

/-- R97: the words that decode to MalformedInstruction are exactly these, and the error carries the raw
word. Written with quotients and remainders of the word, not with the decoder's fields. That the decoder
answers no other error, the words of R96 being an instruction to it, is the model's own (assumption
log 8). -/
def Obligations.MalformedWordsExactly : Prop :=
  ∀ (p : Config.LowNibblePolicy) (op : Word) (e : Error),
    decode p op = .error e ↔
      e = .malformedInstruction op ∧
      ((op.toNat / 4096 = 0x8 ∧ op.toNat % 16 ∈ [0x8, 0x9, 0xA, 0xB, 0xC, 0xD, 0xF]) ∨
       (op.toNat / 4096 = 0xE ∧ op.toNat % 256 ∉ [0x9E, 0xA1]) ∨
       (op.toNat / 4096 = 0xF ∧
         op.toNat % 256 ∉ [0x07, 0x0A, 0x15, 0x18, 0x1E, 0x29, 0x33, 0x55, 0x65]) ∨
       (p = .malformed ∧ (op.toNat / 4096 = 0x5 ∨ op.toNat / 4096 = 0x9) ∧ op.toNat % 16 ≠ 0))

/-- The words are R96's: every word of selector 0 other than exactly 0x00E0 and 0x00EE, and no other. That
they decode to an instruction of the row 0NNN, where R96 has the decoder answer the error, is the model's
own (assumption log 8). -/
def Obligations.IncompatibleWordsExactly : Prop :=
  ∀ (p : Config.LowNibblePolicy) (op : Word),
    (∃ nnn, decode p op = .ok (.incompatibleProgram nnn)) ↔
      op.toNat / 4096 = 0 ∧ op.toNat ≠ 0x00E0 ∧ op.toNat ≠ 0x00EE

/-! ### The cycle and the other strobes -/

/-- R66, R121: when the word at `pc` (high byte first) decodes to `i`, the machine is Running and the next
strobe is a cycle, the step is `exec i` on the state in which that strobe is taken (`takeStrobe`, which
touches the model's own fields alone: assumption log 1). -/
def Obligations.StepRunsDecodedInstruction : Prop :=
  ∀ (s : State) (i : Instr), s.run = .running → s.cycleNext → s.fetchable →
    decode s.policy.lowNibble s.wordAtPc = .ok i →
    step s = exec i s.takeStrobe.2

/-- R66, R121: an encoded instruction placed where the next step fetches is the instruction the step runs.
The placing is the model's own (assumption log 2). -/
def Obligations.PlacedInstructionRuns : Prop :=
  ∀ (s : State) (i : Instr), wellFormed i = true → s.fetchable →
    step (s.withFetchWord 16 (encode i).toNat) =
      exec i (s.withFetchWord 16 (encode i).toNat).takeStrobe.2

/-- R62, R68 and the first places of R269: under the `fault` settings a fetch at an odd `pc`, then one
whose first or second byte is above 0xFFF, ends the run with the model's own fault. -/
def Obligations.FetchStopsByPolicy : Prop :=
  ∀ s : State, s.run = .running → s.cycleNext →
    (s.policy.oddPc = .fault → s.pc.toNat % 2 = 1 → step s = .fault (.misalignedFetch s.pc)) ∧
    (s.policy.oddPc = .fetch ∨ s.pc.toNat % 2 = 0 → s.policy.addr = .fault →
      4096 ≤ s.pc.toNat → step s = .fault (.addressOutOfRange s.pc.toNat)) ∧
    (s.policy.oddPc = .fetch → s.policy.addr = .fault →
      s.pc.toNat = 4095 → step s = .fault (.addressOutOfRange 4096))

/-- R262, R124, R125: a malformed word at `pc` halts with MalformedInstruction carrying the word; `pc`
stays, nothing else changes and no frame is published. That the decoder answers no other error is the
model's own (assumption log 8). -/
def Obligations.MalformedWordHalts : Prop :=
  ∀ (s : State) (e : Error), s.run = .running → s.cycleNext → s.fetchable →
    decode s.policy.lowNibble s.wordAtPc = .error e →
    e = .malformedInstruction s.wordAtPc ∧
    ∃ t, step s = .next t ∧ t.run = .halted e ∧ t.status = .error e ∧ t.frame = none ∧
      SameButList [.run, .status, .frame] s.takeStrobe.2 t

/-- R122: a cycle in Halted changes no state and reports the error again. -/
def Obligations.HaltedCycleReportsAgain : Prop :=
  ∀ (s : State) (e : Error), s.run = .halted e → s.cycleNext →
    ∃ t, step s = .next t ∧ t.status = .error e ∧ t.frame = none ∧
      SameButList [.status, .frame] s.takeStrobe.2 t

/-- R270: a tick takes 1 from each timer that is not 0, in every run state, and changes nothing else. How
the strobe comes to be taken is the model's own (assumption log 1). -/
def Obligations.TickDecrementsTimers : Prop :=
  ∀ s : State, s.takeStrobe.1 = .tick →
    ∃ t, step s = .next t ∧ t.DT.toNat = s.DT.toNat - 1 ∧ t.ST.toNat = s.ST.toNat - 1 ∧
      SameButList [.DT, .ST] s.takeStrobe.2 t

/-- R42: a key strobe sets the latch and nothing else. -/
def Obligations.KeyStrobeSetsLatch : Prop :=
  ∀ (s : State) (k : Option Key), s.takeStrobe.1 = .keyIn k →
    ∃ t, step s = .next t ∧ t.key = k ∧ SameButList [.key] s.takeStrobe.2 t

/-- R290, R77: a reset with an image of at most MAX_IMAGE bytes, in any run state, sets the whole state. The
status port is not spoken of: it is undefined until the first cycle (R50). The configuration stays. -/
def Obligations.ResetSetsWholeState : Prop :=
  ∀ (s : State) (image : List Byte), s.takeStrobe.1 = .reset image →
    image.length ≤ 4096 - s.params.programBase →
    ∃ t, step s = .next t ∧ (∀ r, t.reg r = 0) ∧ t.I = 0 ∧
      t.pc = BitVec.ofNat 16 s.params.programBase ∧ t.stack = [] ∧ t.DT = 0 ∧ t.ST = 0 ∧
      (∀ px py, t.disp.pixel px py = false) ∧
      t.disp.shaped s.params.displayW s.params.displayH = true ∧ t.key = none ∧
      t.run = .running ∧ t.frame = none ∧ t.policy = s.policy ∧ t.params = s.params ∧
      (∀ a, a < 4096 → t.byte a =
        if s.params.programBase ≤ a ∧ a < s.params.programBase + image.length then
          image.getD (a - s.params.programBase) 0
        else if s.params.fontBase ≤ a ∧ a < s.params.fontBase + 16 * s.params.glyphSize then
          s.params.font.getD (a - s.params.fontBase) 0
        else 0)

/-- R292: a reset with a longer image halts with LoadTooLarge, with the zeroed state and the font, and no
byte of the image. -/
def Obligations.OversizeImageHalts : Prop :=
  ∀ (s : State) (image : List Byte), s.takeStrobe.1 = .reset image →
    4096 - s.params.programBase < image.length →
    ∃ t, step s = .next t ∧ (∀ r, t.reg r = 0) ∧ t.I = 0 ∧
      t.pc = BitVec.ofNat 16 s.params.programBase ∧ t.stack = [] ∧ t.DT = 0 ∧ t.ST = 0 ∧
      (∀ px py, t.disp.pixel px py = false) ∧
      t.disp.shaped s.params.displayW s.params.displayH = true ∧ t.key = none ∧
      t.run = .halted .loadTooLarge ∧ t.status = .error .loadTooLarge ∧ t.frame = none ∧
      t.policy = s.policy ∧ t.params = s.params ∧
      (∀ a, a < 4096 → t.byte a =
        if s.params.fontBase ≤ a ∧ a < s.params.fontBase + 16 * s.params.glyphSize then
          s.params.font.getD (a - s.params.fontBase) 0
        else 0)

/-- R50, R65, R7: what State.reset, a reset with the empty image under the reference parameters, holds; the
font's 80 bytes are written out from R65's table. -/
def Obligations.ResetStateHoldsSpecValues : Prop :=
  (∀ r, State.reset.reg r = 0) ∧ State.reset.I = 0 ∧ State.reset.pc = 0x200 ∧
  State.reset.stack = [] ∧ State.reset.DT = 0 ∧ State.reset.ST = 0 ∧
  (∀ px py, State.reset.disp.pixel px py = false) ∧
  State.reset.disp.shaped 64 32 = true ∧ State.reset.key = none ∧
  State.reset.params.stackDepth = 16 ∧ State.reset.params.displayW = 64 ∧
  State.reset.params.displayH = 32 ∧ State.reset.params.programBase = 0x200 ∧
  State.reset.params.fontBase = 0x050 ∧ State.reset.params.glyphSize = 5 ∧
  State.reset.run = .running ∧ State.reset.frame = none ∧
  (∀ a, a < 0x050 → State.reset.byte a = 0) ∧
  (List.range 80).map (fun j => State.reset.byte (0x050 + j)) =
    [0xF0, 0x90, 0x90, 0x90, 0xF0] ++ [0x20, 0x60, 0x20, 0x20, 0x70] ++
    [0xF0, 0x10, 0xF0, 0x80, 0xF0] ++ [0xF0, 0x10, 0xF0, 0x10, 0xF0] ++
    [0x90, 0x90, 0xF0, 0x10, 0x10] ++ [0xF0, 0x80, 0xF0, 0x10, 0xF0] ++
    [0xF0, 0x80, 0xF0, 0x90, 0xF0] ++ [0xF0, 0x10, 0x20, 0x40, 0x40] ++
    [0xF0, 0x90, 0xF0, 0x90, 0xF0] ++ [0xF0, 0x90, 0xF0, 0x10, 0xF0] ++
    [0xF0, 0x90, 0xF0, 0x90, 0x90] ++ [0xE0, 0x90, 0xE0, 0x90, 0xE0] ++
    [0xF0, 0x80, 0x80, 0x80, 0xF0] ++ [0xE0, 0x90, 0x90, 0x90, 0xE0] ++
    [0xF0, 0x80, 0xF0, 0x80, 0xF0] ++ [0xF0, 0x80, 0xF0, 0x80, 0x80] ∧
  (∀ a, 0x0A0 ≤ a → State.reset.byte a = 0)

/-! ### Invariants and rules of the whole machine -/

/-- The invariant of Safety.lean holds right after reset. -/
def Obligations.ResetMeetsInvariant : Prop := State.reset.Inv

/-- Every step, whatever its strobe, keeps the invariant: the parameters still make a machine, memory
stays in canonical form and within its 4096 addresses, the stack within its capacity (R25), the display
keeps its rows and columns (R29), a published frame is the display as it stands
(R44, R128), and a halted machine's status port shows its error (R122, R125). -/
def Obligations.StepKeepsInvariant : Prop :=
  ∀ s t : State, s.Inv → step s = .next t → t.Inv

/-- R272, R291: no strobe but a reset leaves Halted or changes the error held. -/
def Obligations.OnlyResetLeavesHalted : Prop :=
  ∀ (s t : State) (e : Error), s.run = .halted e → step s = .next t →
    (∀ image, s.takeStrobe.1 ≠ .reset image) → t.run = .halted e

/-- No step is refused, in any state; and under ADDR_POLICY = mask and ODD_PC_POLICY = fetch every step
completes, so the model faults of R268 are never raised under the default parameters. -/
def Obligations.EveryStepCompletesByDefault : Prop :=
  (∀ (s : State) (r : Refusal), step s ≠ .refused r) ∧
  (∀ s : State, s.policy.addr = .mask → s.policy.oddPc = .fetch → ∃ t, step s = .next t)

/-- R34: the parameters of R7 and R8 are configuration, not state. The model holds them in two fields
(assumption logs 3 and 7), which no step changes. -/
def Obligations.StepKeepsPolicy : Prop :=
  ∀ s t : State, step s = .next t → t.policy = s.policy ∧ t.params = s.params

/-- R266, R125: an instruction that halts the machine has no effect but the error: registers, `I`, `pc`,
stack, timers, memory and display are as at the start of the cycle. That IncompatibleProgram is raised by
an instruction is the model's own (assumption log 8). -/
def Obligations.ErrorsArePrecise : Prop :=
  ∀ (i : Instr) (s t : State), s.run = .running → exec i s = .next t → t.run ≠ .running →
    ∃ e, (e = .incompatibleProgram ∨ e = .stackOverflow ∨ e = .stackUnderflow) ∧
      t.run = .halted e ∧ t.status = .error e ∧ t.frame = none ∧
      SameButList [.run, .status, .frame] s t

/-- R128 and R223 (an inference the spec marks as its own): only Clear and Draw change the display, and
they alone publish a frame, which is the display at the end of the cycle; `redraw` is reported exactly
then. -/
def Obligations.OnlyClearAndDrawRedraw : Prop :=
  ∀ (i : Instr) (s t : State), exec i s = .next t →
    (redraws i → t.frame = some t.disp ∧ t.status = .ok true) ∧
    (¬ redraws i → t.disp = s.disp ∧ t.frame = none ∧ t.status ≠ .ok true)

/-- R25, "Only Call (2NNN) pushes and only Return (00EE) pops" (an inference the spec marks as its own). -/
def Obligations.OnlyCallAndReturnChangeStack : Prop :=
  ∀ (i : Instr) (s t : State), exec i s = .next t →
    ((∀ nnn, i ≠ .call nnn) → i ≠ .ret → t.stack = s.stack) ∧
    ((∃ nnn, i = .call nnn) → t.stack = s.stack ∨ ∃ v, t.stack = s.stack ++ [v]) ∧
    (i = .ret → t.stack = s.stack ∨ ∃ v, s.stack = t.stack ++ [v])

/-- R60 and the writes column of R69 (an inference the spec marks as its own): only
SetIndexToBinaryCodedVx and DumpRegisters write memory. -/
def Obligations.OnlyStoresChangeMemory : Prop :=
  ∀ (i : Instr) (s t : State), exec i s = .next t →
    (∀ x, i ≠ .setIndexToBinaryCodedVx x ∧ i ≠ .dumpRegisters x) →
    ∀ a, t.byte a = s.byte a

/-- R24, R27, R28, R30: which instructions write `I`, the timers and the key latch. -/
def Obligations.WritersOfIndexTimersAndLatch : Prop :=
  ∀ (i : Instr) (s t : State), exec i s = .next t →
    t.key = s.key ∧
    (t.DT ≠ s.DT → ∃ x, i = .setDelayTimer x) ∧
    (t.ST ≠ s.ST → ∃ x, i = .setSoundTimer x) ∧
    (t.I ≠ s.I →
      (∃ nnn, i = .setIndexRegister nnn) ∨
      (∃ x, i = .addToIndex x ∨ i = .setIndexToFontCharacter x) ∨
      (s.policy.loadStoreI = .xPlusOne ∧ ∃ x, i = .dumpRegisters x ∨ i = .loadRegisters x))

/-- The writes column of R21 (an inference the spec marks as its own): an instruction changes no general
register but those the table lists as written by it. -/
def Obligations.WritersOfGeneralRegisters : Prop :=
  ∀ (i : Instr) (s t : State), exec i s = .next t →
    ∀ r, ¬ writesReg i r → t.reg r = s.reg r

/-- R28: no instruction reads `ST`. Two states that differ only in `ST` give the same outcome, and after
it they differ at most in `ST`. Where an instruction takes a free byte, this is for the same choice of the
environment in both: the model draws the byte counted by `choices` (assumption log 4), which hardware does
not promise to repeat. -/
def Obligations.NoInstructionReadsSoundTimer : Prop :=
  ∀ (i : Instr) (s : State) (v : Byte),
    (∀ t, exec i s = .next t →
      ∃ t', exec i { s with ST := v } = .next t' ∧ SameButList [.ST] t t') ∧
    (∀ f, exec i s = .fault f → exec i { s with ST := v } = .fault f)

/-- R26 (an inference the spec marks as its own): under ADDR_POLICY = mask (and ODD_PC_POLICY = fetch,
whose other setting reports `pc` itself) `pc`, `I` and the stack entries may be held modulo 4096: two
states that agree but for that take, under every strobe, steps to states that agree but for that. The
environment makes the same free choices in both: the model counts them by `choices` (assumption log 4),
which hardware does not promise to repeat. -/
def Obligations.AddressesModuloMemSize : Prop :=
  ∀ s t : State, SameModuloMemSize s t → s.policy.addr = .mask → s.policy.oddPc = .fetch →
    ∃ s' t', step s = .next s' ∧ step t = .next t' ∧ SameModuloMemSize s' t'

/-- R284, its last sentence (an inference the spec marks as its own): from an ended state a cycle changes
no state of the block, and the state after it is ended. At an odd `pc` under ODD_PC_POLICY = fault, where
the state is ended too, the cycle is the model fault of R68. -/
def Obligations.EndedStateStaysEnded : Prop :=
  ∀ s : State, s.ended → s.cycleNext →
    (s.policy.oddPc = .fetch ∨ s.pc.toNat % 2 = 0 →
      ∃ t, step s = .next t ∧ SameButList [.status, .frame] s.takeStrobe.2 t ∧ t.ended) ∧
    (s.policy.oddPc = .fault → s.pc.toNat % 2 = 1 → step s = .fault (.misalignedFetch s.pc))

/-- R297: after `k` ticks in a row a timer holds `max(v - k, 0)`, and nothing else has changed. -/
def Obligations.TimersAfterTicks : Prop :=
  ∀ (k : Nat) (s : State) (rest : List Strobe), s.strobes = List.replicate k .tick ++ rest →
    ∃ t, Sys2Proof.core.run k s = .next t ∧ t.DT.toNat = s.DT.toNat - k ∧
      t.ST.toNat = s.ST.toNat - k ∧ t.strobes = rest ∧ SameButList [.DT, .ST, .strobes] s t

/-! ### Memory -/

/-- R63, R72: a byte write in reach completes; a read in reach then gives the byte written at its effective
address and, at every other, what it gave before; nothing but that byte changes. -/
def Obligations.MemoryReadAfterWrite : Prop :=
  ∀ (s : State) (a : Nat) (v : Byte), s.addressable a 1 →
    ∃ t, s.memWrite a v = .ok t ∧ SameButList [.byte (a % 4096)] s t ∧
      ∀ b, s.addressable b 1 →
        t.memRead b = if b % 4096 = a % 4096 then .ok v else s.memRead b

/-- R296 and R75 (an inference the spec marks as its own): the word DumpRegisters or
SetIndexToBinaryCodedVx writes at the next instruction's address is the word the next cycle fetches. -/
def Obligations.StoredWordIsFetchedNext : Prop :=
  ∀ (s t : State) (x : RegIdx), s.policy.addr = .mask →
    (s.policy.oddPc = .fetch ∨ s.pc.toNat % 2 = 0) →
    (∀ j, j < x.toNat → exec (.dumpRegisters x) s = .next t →
      (s.I.toNat + j) % 4096 = (s.pc.toNat + 2) % 4096 →
      t.fetch = .ok (s.reg (BitVec.ofNat 4 j) ++ s.reg (BitVec.ofNat 4 (j + 1)))) ∧
    (exec (.setIndexToBinaryCodedVx x) s = .next t →
      (s.I.toNat % 4096 = (s.pc.toNat + 2) % 4096 →
        t.fetch = .ok (BitVec.ofNat 8 ((s.reg x).toNat / 100) ++
          BitVec.ofNat 8 ((s.reg x).toNat / 10 % 10))) ∧
      ((s.I.toNat + 1) % 4096 = (s.pc.toNat + 2) % 4096 →
        t.fetch = .ok (BitVec.ofNat 8 ((s.reg x).toNat / 10 % 10) ++
          BitVec.ofNat 8 ((s.reg x).toNat % 10))))

/-! ### Control flow -/

/-- R141: Jump. -/
def Obligations.JumpSetsPc : Prop :=
  ∀ (s : State) (nnn : Addr),
    ∃ t, exec (.jump nnn) s = .next t ∧ t.pc.toNat = nnn.toNat ∧ t.status = .ok false ∧
      t.frame = none ∧ SameButList [.pc, .status, .frame] s t

/-- R144: JumpWithPcOffset adds `V0`, whatever bits 11 to 8 of the word are. -/
def Obligations.JumpWithPcOffsetAddsV0 : Prop :=
  ∀ (s : State) (nnn : Addr),
    ∃ t, exec (.jumpWithPcOffset nnn) s = .next t ∧
      t.pc.toNat = nnn.toNat + (s.reg 0).toNat ∧ t.status = .ok false ∧
      t.frame = none ∧ SameButList [.pc, .status, .frame] s t

/-- R142, R263: Call pushes the advanced `pc` and jumps; with a full stack it halts with StackOverflow and
has no other effect. -/
def Obligations.CallPushesOrOverflows : Prop :=
  ∀ (s : State) (nnn : Addr),
    (s.stack.length < s.params.stackDepth →
      ∃ t, exec (.call nnn) s = .next t ∧ t.stack = s.stack ++ [s.pc + 2] ∧
        t.pc.toNat = nnn.toNat ∧ t.status = .ok false ∧ t.frame = none ∧
        SameButList [.stack, .pc, .status, .frame] s t) ∧
    (s.stack.length = s.params.stackDepth →
      ∃ t, exec (.call nnn) s = .next t ∧ t.run = .halted .stackOverflow ∧
        t.status = .error .stackOverflow ∧ t.frame = none ∧
        SameButList [.run, .status, .frame] s t)

/-- R143, R264: Return pops the last entry into `pc`; with an empty stack it halts with StackUnderflow and
has no other effect. -/
def Obligations.ReturnPopsOrUnderflows : Prop :=
  ∀ s : State,
    (∀ l v, s.stack = l ++ [v] →
      ∃ t, exec .ret s = .next t ∧ t.pc = v ∧ t.stack = l ∧ t.status = .ok false ∧
        t.frame = none ∧ SameButList [.stack, .pc, .status, .frame] s t) ∧
    (s.stack = [] →
      ∃ t, exec .ret s = .next t ∧ t.run = .halted .stackUnderflow ∧
        t.status = .error .stackUnderflow ∧ t.frame = none ∧
        SameButList [.run, .status, .frame] s t)

/-- R142, R143: a Return executed after a Call, before anything else changes the stack, continues after
the Call with the stack as it was. -/
def Obligations.ReturnUndoesCall : Prop :=
  ∀ (s t u : State) (nnn : Addr), s.run = .running → exec (.call nnn) s = .next t →
    t.run = .running → u.stack = t.stack →
    ∃ w, exec .ret u = .next w ∧ w.pc = s.pc + 2 ∧ w.stack = s.stack

/-- R145 to R148: the skips on register values. -/
def Obligations.RegisterSkips : Prop :=
  ∀ (s : State) (x y : RegIdx) (nn : Byte),
    (∃ t, exec (.skipIfVxEqualsNn x nn) s = .next t ∧
      t.pc = s.pc + (if s.reg x = nn then 4 else 2) ∧ t.status = .ok false ∧ t.frame = none ∧
      SameButList [.pc, .status, .frame] s t) ∧
    (∃ t, exec (.skipIfVxNotEqualsNn x nn) s = .next t ∧
      t.pc = s.pc + (if s.reg x = nn then 2 else 4) ∧ t.status = .ok false ∧ t.frame = none ∧
      SameButList [.pc, .status, .frame] s t) ∧
    (∃ t, exec (.skipIfVxEqualsVy x y) s = .next t ∧
      t.pc = s.pc + (if s.reg x = s.reg y then 4 else 2) ∧ t.status = .ok false ∧
      t.frame = none ∧ SameButList [.pc, .status, .frame] s t) ∧
    (∃ t, exec (.skipIfVxNotEqualsVy x y) s = .next t ∧
      t.pc = s.pc + (if s.reg x = s.reg y then 2 else 4) ∧ t.status = .ok false ∧
      t.frame = none ∧ SameButList [.pc, .status, .frame] s t)

/-! ### Arithmetic, bitwise, immediate and copy -/

/-- R170, R171, R172: SetImmediate, AddImmediate and Copy, none of which writes `VF` as a flag. -/
def Obligations.ImmediateAndCopy : Prop :=
  ∀ (s : State) (x y : RegIdx) (nn : Byte),
    (∃ t, exec (.setImmediate x nn) s = .next t ∧ t.reg x = nn ∧ Advanced s t ∧
      SameButList [.reg x, .pc, .status, .frame] s t) ∧
    (∃ t, exec (.addImmediate x nn) s = .next t ∧
      (t.reg x).toNat = ((s.reg x).toNat + nn.toNat) % 256 ∧ Advanced s t ∧
      SameButList [.reg x, .pc, .status, .frame] s t) ∧
    (∃ t, exec (.copy x y) s = .next t ∧ t.reg x = s.reg y ∧ Advanced s t ∧
      SameButList [.reg x, .pc, .status, .frame] s t)

/-- R167, R168, R169: Or, And and Xor, bit by bit, with no flag. -/
def Obligations.BitwiseInstructions : Prop :=
  ∀ (s : State) (x y : RegIdx),
    (∃ t, exec (.or x y) s = .next t ∧
      (∀ k, (t.reg x).getLsbD k = ((s.reg x).getLsbD k || (s.reg y).getLsbD k)) ∧ Advanced s t ∧
      SameButList [.reg x, .pc, .status, .frame] s t) ∧
    (∃ t, exec (.and x y) s = .next t ∧
      (∀ k, (t.reg x).getLsbD k = ((s.reg x).getLsbD k && (s.reg y).getLsbD k)) ∧ Advanced s t ∧
      SameButList [.reg x, .pc, .status, .frame] s t) ∧
    (∃ t, exec (.xor x y) s = .next t ∧
      (∀ k, (t.reg x).getLsbD k = ((s.reg x).getLsbD k ^^ (s.reg y).getLsbD k)) ∧ Advanced s t ∧
      SameButList [.reg x, .pc, .status, .frame] s t)

/-- R162, R161: Add; the flag is 1 exactly when the wide sum passes 255. With
destination `VF` under `draw` the value is the model's free byte (assumption logs 4 and 5). -/
def Obligations.AddSetsCarry : Prop :=
  ∀ (s : State) (x y : RegIdx),
    ∃ t, exec (.add x y) s = .next t ∧
      SetsResultAndFlag s t x
        (BitVec.ofNat 8 (((s.reg x).toNat + (s.reg y).toNat) % 256))
        (if 255 < (s.reg x).toNat + (s.reg y).toNat then 1 else 0)
        (if 255 < (s.reg x).toNat + (s.reg y).toNat then 1 else 0) ∧
      Advanced s t ∧ SameButList [.reg x, .reg 0xF, .pc, .status, .frame, .choices] s t

/-- R163, R161: Subtract; the flag is 1 exactly when there is no borrow. With
destination `VF` under `draw` the value is the model's free byte (assumption logs 4 and 5). -/
def Obligations.SubtractSetsNoBorrow : Prop :=
  ∀ (s : State) (x y : RegIdx),
    ∃ t, exec (.subtract x y) s = .next t ∧
      SetsResultAndFlag s t x
        (BitVec.ofNat 8 (((s.reg x).toNat + 256 - (s.reg y).toNat) % 256))
        (if (s.reg y).toNat ≤ (s.reg x).toNat then 1 else 0)
        (if (s.reg y).toNat ≤ (s.reg x).toNat then 1 else 0) ∧
      Advanced s t ∧ SameButList [.reg x, .reg 0xF, .pc, .status, .frame, .choices] s t

/-- R164, R161: SetVxToVyMinusVx; the flag is 1 exactly when there is no borrow. With
destination `VF` under `draw` the value is the model's free byte (assumption logs 4 and 5). -/
def Obligations.ReverseSubtractSetsNoBorrow : Prop :=
  ∀ (s : State) (x y : RegIdx),
    ∃ t, exec (.setVxToVyMinusVx x y) s = .next t ∧
      SetsResultAndFlag s t x
        (BitVec.ofNat 8 (((s.reg y).toNat + 256 - (s.reg x).toNat) % 256))
        (if (s.reg x).toNat ≤ (s.reg y).toNat then 1 else 0)
        (if (s.reg x).toNat ≤ (s.reg y).toNat then 1 else 0) ∧
      Advanced s t ∧ SameButList [.reg x, .reg 0xF, .pc, .status, .frame, .choices] s t

/-- R165, R166, R161: the shifts by one of `V[x]`, whatever `y` is; the flag is the bit
shifted out. With destination `VF` under `draw` the value is the model's free byte (assumption logs 4
and 5). -/
def Obligations.ShiftsSetBitShiftedOut : Prop :=
  ∀ (s : State) (x y : RegIdx),
    (∃ t, exec (.rightShift x y) s = .next t ∧
      SetsResultAndFlag s t x (BitVec.ofNat 8 ((s.reg x).toNat / 2))
        (BitVec.ofNat 8 ((s.reg x).toNat % 2)) 0 ∧
      Advanced s t ∧ SameButList [.reg x, .reg 0xF, .pc, .status, .frame, .choices] s t) ∧
    (∃ t, exec (.leftShift x y) s = .next t ∧
      SetsResultAndFlag s t x (BitVec.ofNat 8 (2 * (s.reg x).toNat % 256))
        (BitVec.ofNat 8 ((s.reg x).toNat / 128))
        (BitVec.ofNat 8 (2 * ((s.reg x).toNat / 128))) ∧
      Advanced s t ∧ SameButList [.reg x, .reg 0xF, .pc, .status, .frame, .choices] s t)

/-- R173 (an inference the spec marks as its own): Add and then Subtract of the same register restores
`V[x]`. `y` is neither `x` nor F, so that
the second operand is the same in both. -/
def Obligations.SubtractUndoesAdd : Prop :=
  ∀ (s t u : State) (x y : RegIdx), x ≠ 0xF → y ≠ 0xF → y ≠ x →
    exec (.add x y) s = .next t → exec (.subtract x y) t = .next u → u.reg x = s.reg x

/-! ### Index register and memory transfers -/

/-- R191, R192, R193: the instructions that set `I`; AddToIndex writes no flag. The glyph's address is for
parameters that put the font in memory. -/
def Obligations.IndexInstructions : Prop :=
  ∀ (s : State) (nnn : Addr) (x : RegIdx),
    (∃ t, exec (.setIndexRegister nnn) s = .next t ∧ t.I.toNat = nnn.toNat ∧ Advanced s t ∧
      SameButList [.I, .pc, .status, .frame] s t) ∧
    (∃ t, exec (.addToIndex x) s = .next t ∧
      t.I.toNat = (s.I.toNat + (s.reg x).toNat) % 65536 ∧ Advanced s t ∧
      SameButList [.I, .pc, .status, .frame] s t) ∧
    (∃ t, exec (.setIndexToFontCharacter x) s = .next t ∧
      (s.params.wf = true →
        t.I.toNat = s.params.fontBase + s.params.glyphSize * ((s.reg x).toNat % 16)) ∧
      Advanced s t ∧
      SameButList [.I, .pc, .status, .frame] s t)

/-- R194: the decimal digits of `V[x]` at `I`, `I+1`, `I+2`; `I` is unchanged, and so is every other byte
of memory. -/
def Obligations.BinaryCodedDigits : Prop :=
  ∀ (s : State) (x : RegIdx), s.addressable s.I.toNat 3 →
    ∃ t, exec (.setIndexToBinaryCodedVx x) s = .next t ∧
      (t.byte (s.I.toNat % 4096)).toNat = (s.reg x).toNat / 100 ∧
      (t.byte ((s.I.toNat + 1) % 4096)).toNat = (s.reg x).toNat / 10 % 10 ∧
      (t.byte ((s.I.toNat + 2) % 4096)).toNat = (s.reg x).toNat % 10 ∧
      Advanced s t ∧
      SameBut (fun p => p ∈ [Piece.pc, .status, .frame] ∨
        ∃ j < 3, p = .byte ((s.I.toNat + j) % 4096)) s t

/-- R195, R197: `V0` to `V[x]` at `I` and up, every other byte of memory unchanged; `I` by LOADSTORE_I. -/
def Obligations.DumpRegistersStoresBlock : Prop :=
  ∀ (s : State) (x : RegIdx), s.addressable s.I.toNat (x.toNat + 1) →
    ∃ t, exec (.dumpRegisters x) s = .next t ∧
      (∀ r : RegIdx, r.toNat ≤ x.toNat → t.byte ((s.I.toNat + r.toNat) % 4096) = s.reg r) ∧
      (s.policy.loadStoreI = .unchanged → t.I = s.I) ∧
      (s.policy.loadStoreI = .xPlusOne → t.I.toNat = (s.I.toNat + x.toNat + 1) % 65536) ∧
      Advanced s t ∧
      SameBut (fun p => p ∈ [Piece.I, .pc, .status, .frame] ∨
        ∃ j ≤ x.toNat, p = .byte ((s.I.toNat + j) % 4096)) s t

/-- R196, R197: `V0` to `V[x]` from `I` and up, every other register unchanged; `I` by LOADSTORE_I. -/
def Obligations.LoadRegistersLoadsBlock : Prop :=
  ∀ (s : State) (x : RegIdx), s.addressable s.I.toNat (x.toNat + 1) →
    ∃ t, exec (.loadRegisters x) s = .next t ∧
      (∀ r : RegIdx, r.toNat ≤ x.toNat → t.reg r = s.byte ((s.I.toNat + r.toNat) % 4096)) ∧
      (s.policy.loadStoreI = .unchanged → t.I = s.I) ∧
      (s.policy.loadStoreI = .xPlusOne → t.I.toNat = (s.I.toNat + x.toNat + 1) % 65536) ∧
      Advanced s t ∧
      SameBut (fun p => p ∈ [Piece.I, .pc, .status, .frame] ∨
        ∃ r : RegIdx, r.toNat ≤ x.toNat ∧ p = .reg r) s t

/-- R62, R190: under ADDR_POLICY = fault a transfer or a sprite that reaches above 0xFFF ends the run with
the first address out of range. -/
def Obligations.DataAddressStopsByPolicy : Prop :=
  ∀ (s : State) (x y : RegIdx) (n : BitVec 4), s.policy.addr = .fault →
    (4096 < s.I.toNat + 3 →
      exec (.setIndexToBinaryCodedVx x) s = .fault (.addressOutOfRange (max s.I.toNat 4096))) ∧
    (4096 < s.I.toNat + x.toNat + 1 →
      exec (.dumpRegisters x) s = .fault (.addressOutOfRange (max s.I.toNat 4096)) ∧
      exec (.loadRegisters x) s = .fault (.addressOutOfRange (max s.I.toNat 4096))) ∧
    (1 ≤ n.toNat → 4096 < s.I.toNat + n.toNat →
      exec (.draw x y n) s = .fault (.addressOutOfRange (max s.I.toNat 4096)))

/-! ### Random, display, keypad, timers -/

/-- R211: Random masks the free byte; no bit outside `nn` is set, whatever the byte is. That the byte is
the one counted by `choices` is the model's own way to hold a free value (assumption log 4). -/
def Obligations.RandomMasksFreeByte : Prop :=
  ∀ (s : State) (x : RegIdx) (nn : Byte),
    ∃ t, exec (.random x nn) s = .next t ∧ t.reg x = Config.drawByte s.choices &&& nn ∧
      (∀ k, nn.getLsbD k = false → (t.reg x).getLsbD k = false) ∧
      t.choices = s.choices + 1 ∧ Advanced s t ∧
      SameButList [.reg x, .choices, .pc, .status, .frame] s t

/-- R218, R216, R128: Clear sets every pixel to 0 and publishes that frame; `VF` is unchanged. -/
def Obligations.ClearDarkensDisplay : Prop :=
  ∀ s : State,
    ∃ t, exec .clear s = .next t ∧ (∀ px py, t.disp.pixel px py = false) ∧
      t.disp.shaped s.params.displayW s.params.displayH = true ∧
      t.pc = s.pc + 2 ∧ t.status = .ok true ∧ t.frame = some t.disp ∧
      SameBut (fun p => p ∈ [Piece.shape, .pc, .status, .frame] ∨ ∃ px py, p = .pixel px py) s t

/-- R219, R220, R221, R222: Draw flips a pixel once for each set bit of the sprite that falls on it, wrapping
at the edges; `VF` is 1 exactly when some pixel went from lit to unlit on the way; `I` and memory are
unchanged; the frame is published. On a display at least as large as the sprite, so that no two bits fall
on one pixel: exactly the covered pixels are flipped, and `VF` is 1 exactly when one of them was lit. -/
def Obligations.DrawXorsSprite : Prop :=
  ∀ (s : State) (x y : RegIdx) (n : BitVec 4), s.addressable s.I.toNat n.toNat →
    ∃ t, exec (.draw x y n) s = .next t ∧
      t.pc = s.pc + 2 ∧ t.status = .ok true ∧ t.frame = some t.disp ∧
      SameBut (fun p => p ∈ [Piece.reg 0xF, .pc, .status, .frame] ∨ ∃ px py, p = .pixel px py) s t ∧
      (s.dispOk →
        (∀ px py, t.disp.pixel px py =
          (s.disp.pixel px py ^^ decide ((s.spriteHits x y n.toNat).count (px, py) % 2 = 1))) ∧
        ((∃ px py, s.spriteCollides x y n.toNat px py) → t.reg 0xF = 1) ∧
        ((¬ ∃ px py, s.spriteCollides x y n.toNat px py) → t.reg 0xF = 0)) ∧
      (s.dispOk → s.spriteFits n.toNat →
        (∀ px py, (s.spriteCovers x y n.toNat px py →
            t.disp.pixel px py = !s.disp.pixel px py) ∧
          (¬ s.spriteCovers x y n.toNat px py → t.disp.pixel px py = s.disp.pixel px py)) ∧
        ((∃ px py, s.spriteCovers x y n.toNat px py ∧ s.disp.pixel px py = true) →
          t.reg 0xF = 1) ∧
        ((¬ ∃ px py, s.spriteCovers x y n.toNat px py ∧ s.disp.pixel px py = true) →
          t.reg 0xF = 0))

/-- R219, R221, R222: drawing the same sprite twice at the same place restores every pixel. On a display at
least as large as the sprite, the second collision flag is 1 exactly when some pixel under a set bit was
unlit before the first Draw. (A corner case of R220 says 1 for every sprite with a set bit; that fails
when all pixels under it were lit at first.) -/
def Obligations.DrawTwiceRestores : Prop :=
  ∀ (s t u : State) (x y : RegIdx) (n : BitVec 4), x ≠ 0xF → y ≠ 0xF →
    exec (.draw x y n) s = .next t → exec (.draw x y n) t = .next u →
    u.disp = s.disp ∧
    (s.dispOk → s.spriteFits n.toNat →
      (u.reg 0xF = 1 ↔ ∃ px py, s.spriteCovers x y n.toNat px py ∧ s.disp.pixel px py = false))

/-- R217: inverting a pixel of the display flips it and no other and returns its new value, and inverting it
twice restores the display. -/
def Obligations.InvertFlipsOnePixel : Prop :=
  ∀ (w h : Nat) (d : Display) (x y : Nat), d.shaped w h = true → x < w → y < h →
    (d.invert x y).1.pixel x y = !d.pixel x y ∧
    (d.invert x y).2 = !d.pixel x y ∧
    (∀ px py, (px ≠ x ∨ py ≠ y) → (d.invert x y).1.pixel px py = d.pixel px py) ∧
    (d.invert x y).1.shaped w h = true ∧
    ((d.invert x y).1.invert x y).1 = d

/-- R44, R29: the frame port shows one byte per pixel, 0 or 1, row-major from the top left. -/
def Obligations.FrameBytesRowMajor : Prop :=
  ∀ (s : State) (d : Display), s.frame = some d →
    d.shaped s.params.displayW s.params.displayH = true →
    ∃ bytes, s.framePort = some bytes ∧
      bytes.length = s.params.displayW * s.params.displayH ∧
      ∀ px py, px < s.params.displayW → py < s.params.displayH →
        bytes[py * s.params.displayW + px]? = some (if d.pixel px py then 1 else 0)

/-- R235, R236, R237: the key skips test the low nibble of `V[x]` against the latch, which keeps its
value. -/
def Obligations.KeySkips : Prop :=
  ∀ (s : State) (x : RegIdx),
    (∃ t, exec (.skipIfKeyPressed x) s = .next t ∧
      (s.holdsKey x → t.pc = s.pc + 4) ∧ (¬ s.holdsKey x → t.pc = s.pc + 2) ∧
      t.status = .ok false ∧ t.frame = none ∧ SameButList [.pc, .status, .frame] s t) ∧
    (∃ t, exec (.skipIfKeyNotPressed x) s = .next t ∧
      (s.holdsKey x → t.pc = s.pc + 2) ∧ (¬ s.holdsKey x → t.pc = s.pc + 4) ∧
      t.status = .ok false ∧ t.frame = none ∧ SameButList [.pc, .status, .frame] s t)

/-- R240: AwaitKeyInput holds `pc` and reports waiting while the latch holds no key; with a key it stores
it in `V[x]` and advances, and the latch keeps the key. -/
def Obligations.AwaitKeyInputWaits : Prop :=
  ∀ (s : State) (x : RegIdx),
    (s.key = none →
      ∃ t, exec (.awaitKeyInput x) s = .next t ∧ t.status = .waiting ∧ t.frame = none ∧
        SameButList [.status, .frame] s t) ∧
    (∀ k, s.key = some k →
      ∃ t, exec (.awaitKeyInput x) s = .next t ∧ (t.reg x).toNat = k.toNat ∧ Advanced s t ∧
        SameButList [.reg x, .pc, .status, .frame] s t)

/-- R250, R251, R252: the timer instructions. -/
def Obligations.TimerInstructions : Prop :=
  ∀ (s : State) (x : RegIdx),
    (∃ t, exec (.setVxToDelayTimer x) s = .next t ∧ t.reg x = s.DT ∧ Advanced s t ∧
      SameButList [.reg x, .pc, .status, .frame] s t) ∧
    (∃ t, exec (.setDelayTimer x) s = .next t ∧ t.DT = s.reg x ∧ Advanced s t ∧
      SameButList [.DT, .pc, .status, .frame] s t) ∧
    (∃ t, exec (.setSoundTimer x) s = .next t ∧ t.ST = s.reg x ∧ t.soundPort = s.reg x ∧
      Advanced s t ∧ SameButList [.ST, .pc, .status, .frame] s t)

/-- R261, R266: executing the constructor of the row 0NNN halts with IncompatibleProgram and has no other
effect. R261 raises the error at decode; that the row has a constructor whose execution raises it is the
model's own (assumption log 8). -/
def Obligations.IncompatibleProgramHalts : Prop :=
  ∀ (s : State) (nnn : Addr),
    ∃ t, exec (.incompatibleProgram nnn) s = .next t ∧ t.run = .halted .incompatibleProgram ∧
      t.status = .error .incompatibleProgram ∧ t.frame = none ∧
      SameButList [.run, .status, .frame] s t
end

