-- ==== Sys2Proof/Laws/Decode.lean ====
section
/-! SUPPORT. The fields of a word as quotients and remainders, and the fields of an encoded word. -/

namespace Sys2Proof

/-- A concatenation as a number. -/
theorem toNat_append_mul {m n : Nat} (a : BitVec m) (b : BitVec n) :
    (a ++ b).toNat = a.toNat * 2 ^ n + b.toNat := by
  rw [BitVec.toNat_append, Nat.shiftLeft_eq, Nat.mul_comm]
  exact (Nat.two_pow_add_eq_or_of_lt b.isLt _).symm

theorem toNat_nnn (k : BitVec 4) (nnn : Addr) :
    (k ++ nnn : Word).toNat = k.toNat * 4096 + nnn.toNat := toNat_append_mul k nnn

theorem toNat_xnn (k x : BitVec 4) (nn : Byte) :
    (k ++ x ++ nn : Word).toNat = k.toNat * 4096 + x.toNat * 256 + nn.toNat := by
  refine (toNat_append_mul (k ++ x) nn).trans ?_
  rw [toNat_append_mul k x]; ring

theorem toNat_xyn (k x y n : BitVec 4) :
    (k ++ x ++ y ++ n : Word).toNat =
      k.toNat * 4096 + x.toNat * 256 + y.toNat * 16 + n.toNat := by
  refine (toNat_append_mul (k ++ x ++ y) n).trans ?_
  rw [toNat_append_mul (k ++ x) y, toNat_append_mul k x]; ring

theorem toNat_bytes (hi lo : Byte) : (hi ++ lo : Word).toNat = hi.toNat * 256 + lo.toNat :=
  toNat_append_mul hi lo

/-! ### Fields as numbers -/

theorem toNat_fieldSelector (op : Word) : (fieldSelector op).toNat = op.toNat / 4096 := by
  have := op.isLt
  simp [fieldSelector, Nat.shiftRight_eq_div_pow]; omega

theorem toNat_fieldX (op : Word) : (fieldX op).toNat = op.toNat / 256 % 16 := by
  simp [fieldX, Nat.shiftRight_eq_div_pow]

theorem toNat_fieldY (op : Word) : (fieldY op).toNat = op.toNat / 16 % 16 := by
  simp [fieldY, Nat.shiftRight_eq_div_pow]

theorem toNat_fieldN (op : Word) : (fieldN op).toNat = op.toNat % 16 := by
  simp [fieldN]

theorem toNat_fieldNn (op : Word) : (fieldNn op).toNat = op.toNat % 256 := by
  simp [fieldNn]

theorem toNat_fieldNnn (op : Word) : (fieldNnn op).toNat = op.toNat % 4096 := by
  simp [fieldNnn]

/-! ### Fields of an encoded word -/

theorem fields_nnn (k : BitVec 4) (nnn : Addr) :
    fieldSelector (k ++ nnn) = k ∧ fieldNnn (k ++ nnn) = nnn := by
  have := k.isLt
  have := nnn.isLt
  refine ⟨?_, ?_⟩ <;> apply BitVec.eq_of_toNat_eq
  · rw [toNat_fieldSelector, toNat_nnn]; omega
  · rw [toNat_fieldNnn, toNat_nnn]; omega

theorem fields_xnn (k x : BitVec 4) (nn : Byte) :
    fieldSelector (k ++ x ++ nn) = k ∧ fieldX (k ++ x ++ nn) = x ∧ fieldNn (k ++ x ++ nn) = nn := by
  have := k.isLt
  have := x.isLt
  have := nn.isLt
  refine ⟨?_, ?_, ?_⟩ <;> apply BitVec.eq_of_toNat_eq
  · rw [toNat_fieldSelector, toNat_xnn]; omega
  · rw [toNat_fieldX, toNat_xnn]; omega
  · rw [toNat_fieldNn, toNat_xnn]; omega

theorem fields_xyn (k x y n : BitVec 4) :
    fieldSelector (k ++ x ++ y ++ n) = k ∧ fieldX (k ++ x ++ y ++ n) = x ∧
      fieldY (k ++ x ++ y ++ n) = y ∧ fieldN (k ++ x ++ y ++ n) = n := by
  have := k.isLt
  have := x.isLt
  have := y.isLt
  have := n.isLt
  refine ⟨?_, ?_, ?_, ?_⟩ <;> apply BitVec.eq_of_toNat_eq
  · rw [toNat_fieldSelector, toNat_xyn]; omega
  · rw [toNat_fieldX, toNat_xyn]; omega
  · rw [toNat_fieldY, toNat_xyn]; omega
  · rw [toNat_fieldN, toNat_xyn]; omega

/-- A word is its two bytes, the high byte first. -/
theorem wordOfBytes_bytesOfWord (op : Word) :
    wordOfBytes (bytesOfWord op).1 (bytesOfWord op).2 = op := by
  have := op.isLt
  apply BitVec.eq_of_toNat_eq
  unfold wordOfBytes bytesOfWord
  rw [toNat_bytes]
  simp [Nat.shiftRight_eq_div_pow]; omega

end Sys2Proof
end

