-- ==== Sys2Proof/Laws/State.lean ====
section
/-! SUPPORT. One lemma per field per named update of State, true by rfl, so that no later proof
unfolds a record update. -/

namespace Sys2Proof.Machine

variable (s : State)

@[simp] theorem State.setReg_V (x : RegIdx) (v : Byte) : (s.setReg x v).V = s.V.set x.toNat v x.isLt := rfl
@[simp] theorem State.setReg_I (x : RegIdx) (v : Byte) : (s.setReg x v).I = s.I := rfl
@[simp] theorem State.setReg_pc (x : RegIdx) (v : Byte) : (s.setReg x v).pc = s.pc := rfl
@[simp] theorem State.setReg_stack (x : RegIdx) (v : Byte) : (s.setReg x v).stack = s.stack := rfl
@[simp] theorem State.setReg_DT (x : RegIdx) (v : Byte) : (s.setReg x v).DT = s.DT := rfl
@[simp] theorem State.setReg_ST (x : RegIdx) (v : Byte) : (s.setReg x v).ST = s.ST := rfl
@[simp] theorem State.setReg_disp (x : RegIdx) (v : Byte) : (s.setReg x v).disp = s.disp := rfl
@[simp] theorem State.setReg_mem (x : RegIdx) (v : Byte) : (s.setReg x v).mem = s.mem := rfl
@[simp] theorem State.setReg_key (x : RegIdx) (v : Byte) : (s.setReg x v).key = s.key := rfl
@[simp] theorem State.setReg_run (x : RegIdx) (v : Byte) : (s.setReg x v).run = s.run := rfl
@[simp] theorem State.setReg_status (x : RegIdx) (v : Byte) : (s.setReg x v).status = s.status := rfl
@[simp] theorem State.setReg_frame (x : RegIdx) (v : Byte) : (s.setReg x v).frame = s.frame := rfl
@[simp] theorem State.setReg_strobes (x : RegIdx) (v : Byte) : (s.setReg x v).strobes = s.strobes := rfl
@[simp] theorem State.setReg_policy (x : RegIdx) (v : Byte) : (s.setReg x v).policy = s.policy := rfl
@[simp] theorem State.setReg_params (x : RegIdx) (v : Byte) : (s.setReg x v).params = s.params := rfl
@[simp] theorem State.setReg_choices (x : RegIdx) (v : Byte) : (s.setReg x v).choices = s.choices := rfl

@[simp] theorem State.advance_V : s.advance.V = s.V := rfl
@[simp] theorem State.advance_I : s.advance.I = s.I := rfl
@[simp] theorem State.advance_pc : s.advance.pc = s.pc + 2 := rfl
@[simp] theorem State.advance_stack : s.advance.stack = s.stack := rfl
@[simp] theorem State.advance_DT : s.advance.DT = s.DT := rfl
@[simp] theorem State.advance_ST : s.advance.ST = s.ST := rfl
@[simp] theorem State.advance_disp : s.advance.disp = s.disp := rfl
@[simp] theorem State.advance_mem : s.advance.mem = s.mem := rfl
@[simp] theorem State.advance_key : s.advance.key = s.key := rfl
@[simp] theorem State.advance_run : s.advance.run = s.run := rfl
@[simp] theorem State.advance_status : s.advance.status = .ok false := rfl
@[simp] theorem State.advance_frame : s.advance.frame = none := rfl
@[simp] theorem State.advance_strobes : s.advance.strobes = s.strobes := rfl
@[simp] theorem State.advance_policy : s.advance.policy = s.policy := rfl
@[simp] theorem State.advance_params : s.advance.params = s.params := rfl
@[simp] theorem State.advance_choices : s.advance.choices = s.choices := rfl

@[simp] theorem State.publish_V : s.publish.V = s.V := rfl
@[simp] theorem State.publish_I : s.publish.I = s.I := rfl
@[simp] theorem State.publish_pc : s.publish.pc = s.pc := rfl
@[simp] theorem State.publish_stack : s.publish.stack = s.stack := rfl
@[simp] theorem State.publish_DT : s.publish.DT = s.DT := rfl
@[simp] theorem State.publish_ST : s.publish.ST = s.ST := rfl
@[simp] theorem State.publish_disp : s.publish.disp = s.disp := rfl
@[simp] theorem State.publish_mem : s.publish.mem = s.mem := rfl
@[simp] theorem State.publish_key : s.publish.key = s.key := rfl
@[simp] theorem State.publish_run : s.publish.run = s.run := rfl
@[simp] theorem State.publish_status : s.publish.status = .ok true := rfl
@[simp] theorem State.publish_frame : s.publish.frame = some s.disp := rfl
@[simp] theorem State.publish_strobes : s.publish.strobes = s.strobes := rfl
@[simp] theorem State.publish_policy : s.publish.policy = s.policy := rfl
@[simp] theorem State.publish_params : s.publish.params = s.params := rfl
@[simp] theorem State.publish_choices : s.publish.choices = s.choices := rfl

@[simp] theorem State.stall_V : s.stall.V = s.V := rfl
@[simp] theorem State.stall_I : s.stall.I = s.I := rfl
@[simp] theorem State.stall_pc : s.stall.pc = s.pc := rfl
@[simp] theorem State.stall_stack : s.stall.stack = s.stack := rfl
@[simp] theorem State.stall_DT : s.stall.DT = s.DT := rfl
@[simp] theorem State.stall_ST : s.stall.ST = s.ST := rfl
@[simp] theorem State.stall_disp : s.stall.disp = s.disp := rfl
@[simp] theorem State.stall_mem : s.stall.mem = s.mem := rfl
@[simp] theorem State.stall_key : s.stall.key = s.key := rfl
@[simp] theorem State.stall_run : s.stall.run = s.run := rfl
@[simp] theorem State.stall_status : s.stall.status = .waiting := rfl
@[simp] theorem State.stall_frame : s.stall.frame = none := rfl
@[simp] theorem State.stall_strobes : s.stall.strobes = s.strobes := rfl
@[simp] theorem State.stall_policy : s.stall.policy = s.policy := rfl
@[simp] theorem State.stall_params : s.stall.params = s.params := rfl
@[simp] theorem State.stall_choices : s.stall.choices = s.choices := rfl

@[simp] theorem State.raise_V (e : Error) : (s.raise e).V = s.V := rfl
@[simp] theorem State.raise_I (e : Error) : (s.raise e).I = s.I := rfl
@[simp] theorem State.raise_pc (e : Error) : (s.raise e).pc = s.pc := rfl
@[simp] theorem State.raise_stack (e : Error) : (s.raise e).stack = s.stack := rfl
@[simp] theorem State.raise_DT (e : Error) : (s.raise e).DT = s.DT := rfl
@[simp] theorem State.raise_ST (e : Error) : (s.raise e).ST = s.ST := rfl
@[simp] theorem State.raise_disp (e : Error) : (s.raise e).disp = s.disp := rfl
@[simp] theorem State.raise_mem (e : Error) : (s.raise e).mem = s.mem := rfl
@[simp] theorem State.raise_key (e : Error) : (s.raise e).key = s.key := rfl
@[simp] theorem State.raise_run (e : Error) : (s.raise e).run = .halted e := rfl
@[simp] theorem State.raise_status (e : Error) : (s.raise e).status = .error e := rfl
@[simp] theorem State.raise_frame (e : Error) : (s.raise e).frame = none := rfl
@[simp] theorem State.raise_strobes (e : Error) : (s.raise e).strobes = s.strobes := rfl
@[simp] theorem State.raise_policy (e : Error) : (s.raise e).policy = s.policy := rfl
@[simp] theorem State.raise_params (e : Error) : (s.raise e).params = s.params := rfl
@[simp] theorem State.raise_choices (e : Error) : (s.raise e).choices = s.choices := rfl

@[simp] theorem State.reportHalt_V (e : Error) : (s.reportHalt e).V = s.V := rfl
@[simp] theorem State.reportHalt_I (e : Error) : (s.reportHalt e).I = s.I := rfl
@[simp] theorem State.reportHalt_pc (e : Error) : (s.reportHalt e).pc = s.pc := rfl
@[simp] theorem State.reportHalt_stack (e : Error) : (s.reportHalt e).stack = s.stack := rfl
@[simp] theorem State.reportHalt_DT (e : Error) : (s.reportHalt e).DT = s.DT := rfl
@[simp] theorem State.reportHalt_ST (e : Error) : (s.reportHalt e).ST = s.ST := rfl
@[simp] theorem State.reportHalt_disp (e : Error) : (s.reportHalt e).disp = s.disp := rfl
@[simp] theorem State.reportHalt_mem (e : Error) : (s.reportHalt e).mem = s.mem := rfl
@[simp] theorem State.reportHalt_key (e : Error) : (s.reportHalt e).key = s.key := rfl
@[simp] theorem State.reportHalt_run (e : Error) : (s.reportHalt e).run = s.run := rfl
@[simp] theorem State.reportHalt_status (e : Error) : (s.reportHalt e).status = .error e := rfl
@[simp] theorem State.reportHalt_frame (e : Error) : (s.reportHalt e).frame = none := rfl
@[simp] theorem State.reportHalt_strobes (e : Error) : (s.reportHalt e).strobes = s.strobes := rfl
@[simp] theorem State.reportHalt_policy (e : Error) : (s.reportHalt e).policy = s.policy := rfl
@[simp] theorem State.reportHalt_params (e : Error) : (s.reportHalt e).params = s.params := rfl
@[simp] theorem State.reportHalt_choices (e : Error) : (s.reportHalt e).choices = s.choices := rfl

@[simp] theorem State.tick_V : s.tick.V = s.V := rfl
@[simp] theorem State.tick_I : s.tick.I = s.I := rfl
@[simp] theorem State.tick_pc : s.tick.pc = s.pc := rfl
@[simp] theorem State.tick_stack : s.tick.stack = s.stack := rfl
@[simp] theorem State.tick_DT : s.tick.DT = decrement s.DT := rfl
@[simp] theorem State.tick_ST : s.tick.ST = decrement s.ST := rfl
@[simp] theorem State.tick_disp : s.tick.disp = s.disp := rfl
@[simp] theorem State.tick_mem : s.tick.mem = s.mem := rfl
@[simp] theorem State.tick_key : s.tick.key = s.key := rfl
@[simp] theorem State.tick_run : s.tick.run = s.run := rfl
@[simp] theorem State.tick_status : s.tick.status = s.status := rfl
@[simp] theorem State.tick_frame : s.tick.frame = s.frame := rfl
@[simp] theorem State.tick_strobes : s.tick.strobes = s.strobes := rfl
@[simp] theorem State.tick_policy : s.tick.policy = s.policy := rfl
@[simp] theorem State.tick_params : s.tick.params = s.params := rfl
@[simp] theorem State.tick_choices : s.tick.choices = s.choices := rfl

@[simp] theorem State.setByte_V (a : Nat) (v : Byte) : (s.setByte a v).V = s.V := rfl
@[simp] theorem State.setByte_I (a : Nat) (v : Byte) : (s.setByte a v).I = s.I := rfl
@[simp] theorem State.setByte_pc (a : Nat) (v : Byte) : (s.setByte a v).pc = s.pc := rfl
@[simp] theorem State.setByte_stack (a : Nat) (v : Byte) : (s.setByte a v).stack = s.stack := rfl
@[simp] theorem State.setByte_DT (a : Nat) (v : Byte) : (s.setByte a v).DT = s.DT := rfl
@[simp] theorem State.setByte_ST (a : Nat) (v : Byte) : (s.setByte a v).ST = s.ST := rfl
@[simp] theorem State.setByte_disp (a : Nat) (v : Byte) : (s.setByte a v).disp = s.disp := rfl
@[simp] theorem State.setByte_mem (a : Nat) (v : Byte) : (s.setByte a v).mem = s.mem.write s.params a v := rfl
@[simp] theorem State.setByte_key (a : Nat) (v : Byte) : (s.setByte a v).key = s.key := rfl
@[simp] theorem State.setByte_run (a : Nat) (v : Byte) : (s.setByte a v).run = s.run := rfl
@[simp] theorem State.setByte_status (a : Nat) (v : Byte) : (s.setByte a v).status = s.status := rfl
@[simp] theorem State.setByte_frame (a : Nat) (v : Byte) : (s.setByte a v).frame = s.frame := rfl
@[simp] theorem State.setByte_strobes (a : Nat) (v : Byte) : (s.setByte a v).strobes = s.strobes := rfl
@[simp] theorem State.setByte_policy (a : Nat) (v : Byte) : (s.setByte a v).policy = s.policy := rfl
@[simp] theorem State.setByte_params (a : Nat) (v : Byte) : (s.setByte a v).params = s.params := rfl
@[simp] theorem State.setByte_choices (a : Nat) (v : Byte) : (s.setByte a v).choices = s.choices := rfl

@[simp] theorem State.keyIn_V (k : Option Key) : (s.keyIn k).V = s.V := rfl
@[simp] theorem State.keyIn_I (k : Option Key) : (s.keyIn k).I = s.I := rfl
@[simp] theorem State.keyIn_pc (k : Option Key) : (s.keyIn k).pc = s.pc := rfl
@[simp] theorem State.keyIn_stack (k : Option Key) : (s.keyIn k).stack = s.stack := rfl
@[simp] theorem State.keyIn_DT (k : Option Key) : (s.keyIn k).DT = s.DT := rfl
@[simp] theorem State.keyIn_ST (k : Option Key) : (s.keyIn k).ST = s.ST := rfl
@[simp] theorem State.keyIn_disp (k : Option Key) : (s.keyIn k).disp = s.disp := rfl
@[simp] theorem State.keyIn_mem (k : Option Key) : (s.keyIn k).mem = s.mem := rfl
@[simp] theorem State.keyIn_key (k : Option Key) : (s.keyIn k).key = k := rfl
@[simp] theorem State.keyIn_run (k : Option Key) : (s.keyIn k).run = s.run := rfl
@[simp] theorem State.keyIn_status (k : Option Key) : (s.keyIn k).status = s.status := rfl
@[simp] theorem State.keyIn_frame (k : Option Key) : (s.keyIn k).frame = s.frame := rfl
@[simp] theorem State.keyIn_strobes (k : Option Key) : (s.keyIn k).strobes = s.strobes := rfl
@[simp] theorem State.keyIn_policy (k : Option Key) : (s.keyIn k).policy = s.policy := rfl
@[simp] theorem State.keyIn_params (k : Option Key) : (s.keyIn k).params = s.params := rfl
@[simp] theorem State.keyIn_choices (k : Option Key) : (s.keyIn k).choices = s.choices := rfl

end Sys2Proof.Machine
end

