-- ==== Sys2Proof/Laws/Memory.lean ====
section
/-! SUPPORT. Memory as data: a read after a write, and that every operation keeps the canonical form. -/

namespace Sys2Proof.Machine

variable (p : Config.Params)

theorem Memory.read_insert (m : Memory) (a : Nat) (v : Byte) (b : Nat) :
    (m.insert a v).read p b = if b = a then v else m.read p b := by
  induction m with
  | nil => simp only [Memory.insert, Memory.read, eq_comm]
  | cons c m ih =>
    rcases Nat.lt_trichotomy a c.1 with h | h | h
    · have h1 : (Memory.insert (c :: m) a v) = (a, v) :: c :: m := by simp [Memory.insert, h]
      rw [h1, Memory.read]
      simp only [eq_comm]
    · have h1 : (Memory.insert (c :: m) a v) = (a, v) :: m := by simp [Memory.insert, h]
      rw [h1, Memory.read]
      by_cases hb : b = a
      · simp [hb]
      · rw [if_neg (by simpa [eq_comm] using hb), if_neg hb, Memory.read, if_neg (by omega)]
    · have h1 : (Memory.insert (c :: m) a v) = c :: Memory.insert m a v := by
        simp [Memory.insert, Nat.lt_asymm h, Nat.ne_of_gt h]
      rw [h1, Memory.read, Memory.read, ih]
      by_cases hc : c.1 = b
      · rw [if_pos hc, if_pos hc, if_neg (by omega)]
      · rw [if_neg hc, if_neg hc]

theorem Memory.read_erase (m : Memory) (a b : Nat) :
    (m.erase a).read p b = if b = a then Memory.unlisted p a else m.read p b := by
  induction m with
  | nil => by_cases h : b = a <;> simp [Memory.erase, Memory.read, h]
  | cons c m ih =>
    simp only [Memory.erase] at ih ⊢
    by_cases hca : c.1 = a
    · rw [List.filter_cons_of_neg (by simp [hca]), ih]
      by_cases h : b = a
      · simp [h]
      · have : ¬ a = b := by omega
        simp [Memory.read, hca, h, this]
    · rw [List.filter_cons_of_pos (by simp [hca])]
      by_cases hcb : c.1 = b
      · have : ¬ b = a := by omega
        simp [Memory.read, hcb, this]
      · simp [Memory.read, hcb, ih]

/-- A read after a write: the byte written at its address, and every other address as before. -/
@[simp] theorem Memory.read_write (m : Memory) (a : Nat) (v : Byte) (b : Nat) :
    (m.write p a v).read p b = if b = a then v else m.read p b := by
  unfold Memory.write
  split_ifs with hv h h
  · rw [Memory.read_erase, if_pos h, hv]
  · rw [Memory.read_erase, if_neg h]
  · rw [Memory.read_insert, if_pos h]
  · rw [Memory.read_insert, if_neg h]

@[simp] theorem Memory.wfFrom_cons (lo : Nat) (c : Host.Cell) (m : Memory) :
    Memory.wfFrom p lo (c :: m) = true ↔
      lo ≤ c.1 ∧ c.1 < Config.memSize ∧ c.2 ≠ Memory.unlisted p c.1 ∧
        Memory.wfFrom p (c.1 + 1) m = true := by
  simp [Memory.wfFrom, and_assoc]

theorem Memory.wfFrom_mono {lo lo' : Nat} {m : Memory} (h : Memory.wfFrom p lo m = true)
    (hl : lo' ≤ lo) : Memory.wfFrom p lo' m = true := by
  cases m with
  | nil => rfl
  | cons c m =>
    rw [Memory.wfFrom_cons] at h ⊢
    exact ⟨hl.trans h.1, h.2⟩

theorem Memory.wfFrom_erase {lo : Nat} {m : Memory} (a : Nat) (h : Memory.wfFrom p lo m = true) :
    Memory.wfFrom p lo (m.erase a) = true := by
  induction m generalizing lo with
  | nil => rfl
  | cons c m ih =>
    obtain ⟨h1, h2, h3, h4⟩ := (Memory.wfFrom_cons p lo c m).1 h
    have hm := ih h4
    unfold Memory.erase at hm ⊢
    by_cases hca : c.1 = a
    · rw [List.filter_cons_of_neg (by simp [hca])]
      exact Memory.wfFrom_mono p hm (by omega)
    · rw [List.filter_cons_of_pos (by simp [hca]), Memory.wfFrom_cons]
      exact ⟨h1, h2, h3, hm⟩

theorem Memory.wfFrom_insert {lo : Nat} {m : Memory} {a : Nat} {v : Byte}
    (h : Memory.wfFrom p lo m = true) (hlo : lo ≤ a) (ha : a < Config.memSize)
    (hv : v ≠ Memory.unlisted p a) : Memory.wfFrom p lo (m.insert a v) = true := by
  induction m generalizing lo with
  | nil => exact (Memory.wfFrom_cons p lo (a, v) []).2 ⟨hlo, ha, hv, rfl⟩
  | cons c m ih =>
    obtain ⟨h1, h2, h3, h4⟩ := (Memory.wfFrom_cons p lo c m).1 h
    unfold Memory.insert
    split_ifs with hlt heq
    · exact (Memory.wfFrom_cons p _ _ _).2
        ⟨hlo, ha, hv, (Memory.wfFrom_cons p _ _ _).2 ⟨hlt, h2, h3, h4⟩⟩
    · subst heq
      exact (Memory.wfFrom_cons p _ _ _).2 ⟨hlo, ha, hv, h4⟩
    · exact (Memory.wfFrom_cons p _ _ _).2 ⟨h1, h2, h3, ih h4 (by omega)⟩

/-- A write keeps the canonical form. -/
theorem Memory.wf_write {m : Memory} {a : Nat} (v : Byte) (h : m.wf p = true)
    (ha : a < Config.memSize) : (m.write p a v).wf p = true := by
  unfold Memory.write
  split_ifs with hv
  · exact Memory.wfFrom_erase p a h
  · exact Memory.wfFrom_insert p h (Nat.zero_le a) ha hv

/-- An image that fits keeps the canonical form. -/
theorem Memory.wf_load {m : Memory} {a : Nat} {image : List Byte} (h : m.wf p = true)
    (ha : a + image.length ≤ Config.memSize) : (m.load p a image).wf p = true := by
  induction image generalizing a with
  | nil => exact h
  | cons b bs ih =>
    rw [List.length_cons] at ha
    exact Memory.wf_write p b (ih (by omega)) (by omega)

/-- What a loaded image leaves: its bytes from `a` on, every other address as before. -/
theorem Memory.read_load (m : Memory) (a : Nat) (image : List Byte) (b : Nat) :
    (m.load p a image).read p b =
      if h : a ≤ b ∧ b - a < image.length then image[b - a]'h.2 else m.read p b := by
  induction image generalizing a with
  | nil => simp [Memory.load]
  | cons v bs ih =>
    rw [Memory.load, Memory.read_write]
    by_cases hb : b = a
    · subst hb; simp
    · rw [if_neg hb, ih]
      by_cases h : a + 1 ≤ b ∧ b - (a + 1) < bs.length
      · have h' : a ≤ b ∧ b - a < (v :: bs).length := by rw [List.length_cons]; omega
        rw [dif_pos h, dif_pos h', List.getElem_cons, dif_neg (by omega)]
        congr 1
      · have h' : ¬ (a ≤ b ∧ b - a < (v :: bs).length) := by rw [List.length_cons]; omega
        rw [dif_neg h, dif_neg h']

end Sys2Proof.Machine
end

