-- ==== Sys2Proof/Laws/Ops.lean ====
section
/-! SUPPORT. For each shared operation, what it can do, said once. -/

namespace Sys2Proof.Machine

/-! ### General registers -/

@[simp] theorem State.reg_setReg (s : State) (x : RegIdx) (v : Byte) (r : RegIdx) :
    (s.setReg x v).reg r = if r = x then v else s.reg r := by
  unfold State.reg State.setReg
  by_cases h : r = x
  · subst h; simp
  · have hn : x.toNat ≠ r.toNat := fun hx => h (BitVec.eq_of_toNat_eq hx.symm)
    simp [h, hn]

/-- Registers read the same in states with the same register file. -/
theorem State.reg_congr {s t : State} (h : t.V = s.V) (r : RegIdx) : t.reg r = s.reg r := by
  unfold State.reg; simp only [h]

@[simp] theorem State.reg_advance (s : State) (r : RegIdx) : s.advance.reg r = s.reg r := rfl

@[simp] theorem State.reg_publish (s : State) (r : RegIdx) : s.publish.reg r = s.reg r := rfl

@[simp] theorem State.length_regBlock (s : State) (x : RegIdx) :
    (s.regBlock x).length = x.toNat + 1 := by
  have := x.isLt
  simp [State.regBlock]; omega

theorem State.getElem_regBlock (s : State) (x : RegIdx) (i : Nat) (h : i < (s.regBlock x).length) :
    (s.regBlock x)[i] = s.reg (BitVec.ofNat 4 i) := by
  have hx := x.isLt
  rw [State.length_regBlock] at h
  have hi : i % 16 = i := Nat.mod_eq_of_lt (by omega)
  simp [State.regBlock, State.reg, hi]

/-- Writing a block of registers changes `V` alone. -/
theorem State.setRegBlock_eq (s : State) (i : Nat) (bs : List Byte) :
    s.setRegBlock i bs = { s with V := (s.setRegBlock i bs).V } := by
  induction bs generalizing s i with
  | nil => rfl
  | cons b bs ih => rw [State.setRegBlock, ih]; rfl

/-- What a block of registers written from `V[i]` on leaves. -/
theorem State.reg_setRegBlock (s : State) (i : Nat) (bs : List Byte) (h : i + bs.length ≤ 16)
    (r : RegIdx) :
    (s.setRegBlock i bs).reg r =
      if hr : i ≤ r.toNat ∧ r.toNat - i < bs.length then bs[r.toNat - i]'hr.2 else s.reg r := by
  induction bs generalizing s i with
  | nil => simp [State.setRegBlock]
  | cons b bs ih =>
    rw [List.length_cons] at h
    rw [State.setRegBlock, ih _ _ (by omega), State.reg_setReg]
    have hr := r.isLt
    have heq : r = BitVec.ofNat 4 i ↔ r.toNat = i := by
      rw [← BitVec.toNat_inj, BitVec.toNat_ofNat, Nat.mod_eq_of_lt (by omega)]
    by_cases h0 : r.toNat = i
    · have hn : ¬ (i + 1 ≤ r.toNat ∧ r.toNat - (i + 1) < bs.length) := by omega
      have hp : i ≤ r.toNat ∧ r.toNat - i < (b :: bs).length := by rw [List.length_cons]; omega
      rw [dif_neg hn, if_pos (heq.2 h0), dif_pos hp]
      simp [h0]
    · rw [if_neg (fun hc => h0 (heq.1 hc))]
      by_cases h1 : i + 1 ≤ r.toNat ∧ r.toNat - (i + 1) < bs.length
      · have hp : i ≤ r.toNat ∧ r.toNat - i < (b :: bs).length := by rw [List.length_cons]; omega
        rw [dif_pos h1, dif_pos hp, List.getElem_cons, dif_neg (by omega)]
        congr 1
      · have hn : ¬ (i ≤ r.toNat ∧ r.toNat - i < (b :: bs).length) := by
          rw [List.length_cons]; omega
        rw [dif_neg h1, dif_neg hn]

/-! ### Memory accesses -/

@[simp] theorem State.byte_setByte (s : State) (a : Nat) (v : Byte) (b : Nat) :
    (s.setByte a v).byte b = if b = a then v else s.byte b :=
  Memory.read_write s.params s.mem a v b

/-- Bytes read the same in states with the same memory and the same parameters. -/
theorem State.byte_congr {s t : State} (hm : t.mem = s.mem) (hp : t.params = s.params) (a : Nat) :
    t.byte a = s.byte a := by
  unfold State.byte; rw [hm, hp]

/-- An effective address is the natural-number address modulo the size of memory, under both policies. -/
theorem ea_ok {p : Config.AddrPolicy} {a a' : Nat} (h : ea p a = .ok a') :
    a' = a % Config.memSize ∧ (p = .mask ∨ a < Config.memSize) := by
  cases p with
  | mask => exact ⟨by simpa [ea] using h.symm, .inl rfl⟩
  | fault =>
    simp only [ea] at h
    split at h
    · next hle =>
      injection h with h
      have : a < Config.memSize := by show a < 4096; omega
      exact ⟨by rw [Nat.mod_eq_of_lt this]; exact h.symm, .inr this⟩
    · cases h

/-- When an address is in reach, its effective address is it modulo the size of memory. -/
theorem ea_of_addressable {p : Config.AddrPolicy} {a : Nat}
    (h : p = .mask ∨ a < Config.memSize) : ea p a = .ok (a % Config.memSize) := by
  cases p with
  | mask => rfl
  | fault =>
    have ha : a < 4096 := by simpa using h
    simp only [ea]
    rw [if_pos (by omega), Nat.mod_eq_of_lt ha]

/-- The other case: out of reach, the address is the fault's. -/
theorem ea_error {p : Config.AddrPolicy} {a : Nat} {f : Fault} (h : ea p a = .error f) :
    f = .addressOutOfRange a ∧ p = .fault ∧ Config.memSize ≤ a := by
  cases p with
  | mask => cases h
  | fault =>
    simp only [ea] at h
    split at h
    · cases h
    · injection h with h
      exact ⟨h.symm, rfl, by show 4096 ≤ a; omega⟩

theorem State.memRead_ok {s : State} {a : Nat} {b : Byte} (h : s.memRead a = .ok b) :
    b = s.byte (a % Config.memSize) := by
  unfold State.memRead at h
  split at h
  · next a' he => obtain ⟨rfl, -⟩ := ea_ok he; injection h with h; exact h.symm
  · cases h

theorem State.memRead_of_addressable {s : State} {a : Nat}
    (h : s.policy.addr = .mask ∨ a < Config.memSize) :
    s.memRead a = .ok (s.byte (a % Config.memSize)) := by
  unfold State.memRead
  rw [ea_of_addressable h]

theorem State.memWrite_ok {s t : State} {a : Nat} {v : Byte} (h : s.memWrite a v = .ok t) :
    t = s.setByte (a % Config.memSize) v := by
  unfold State.memWrite at h
  split at h
  · next a' he => obtain ⟨rfl, -⟩ := ea_ok he; injection h with h; exact h.symm
  · cases h

theorem State.memWrite_of_addressable {s : State} {a : Nat} (v : Byte)
    (h : s.policy.addr = .mask ∨ a < Config.memSize) :
    s.memWrite a v = .ok (s.setByte (a % Config.memSize) v) := by
  unfold State.memWrite
  rw [ea_of_addressable h]

/-- The bytes a block of `n` reads from `a` on gives, whenever it gives any. -/
def State.bytesAt (s : State) (a n : Nat) : List Byte :=
  (List.range n).map fun i => s.byte ((a + i) % Config.memSize)

theorem State.bytesAt_succ (s : State) (a n : Nat) :
    s.bytesAt a (n + 1) = s.byte (a % Config.memSize) :: s.bytesAt (a + 1) n := by
  simp only [State.bytesAt, List.range_succ_eq_map, List.map_cons, List.map_map, Nat.add_zero]
  congr 1
  refine List.map_congr_left fun i _ => ?_
  show s.byte ((a + (i + 1)) % Config.memSize) = s.byte ((a + 1 + i) % Config.memSize)
  rw [Nat.add_right_comm a 1 i, Nat.add_assoc]

theorem State.readBlock_ok {s : State} {a n : Nat} {bs : List Byte} (h : s.readBlock a n = .ok bs) :
    bs = s.bytesAt a n := by
  induction n generalizing a bs with
  | zero => simpa [State.readBlock, State.bytesAt] using h.symm
  | succ n ih =>
    unfold State.readBlock at h
    split at h
    · cases h
    · next b hb =>
      split at h
      · cases h
      · next bs' hbs =>
        injection h with h
        rw [State.bytesAt_succ, ← State.memRead_ok hb, ← ih hbs, h]

theorem State.readBlock_of_addressable {s : State} {a n : Nat}
    (h : s.policy.addr = .mask ∨ a + n ≤ Config.memSize) : s.readBlock a n = .ok (s.bytesAt a n) := by
  induction n generalizing a with
  | zero => rfl
  | succ n ih =>
    unfold State.readBlock
    rw [State.memRead_of_addressable (h.imp_right (by omega))]
    simp only
    rw [ih (h.imp_right (by omega)), State.bytesAt_succ]

@[simp] theorem State.length_bytesAt (s : State) (a n : Nat) : (s.bytesAt a n).length = n := by
  simp [State.bytesAt]

@[simp] theorem State.getElem_bytesAt (s : State) (a n i : Nat) (h : i < (s.bytesAt a n).length) :
    (s.bytesAt a n)[i] = s.byte ((a + i) % Config.memSize) := by
  simp [State.bytesAt]

/-- The other case: under ADDR_POLICY = fault a block that reaches above the last address stops at the
first address out of reach. -/
theorem State.readBlock_fault {s : State} (hp : s.policy.addr = .fault) {a n : Nat}
    (h : Config.memSize < a + n) (hn : 1 ≤ n) :
    s.readBlock a n = .error (.addressOutOfRange (max a Config.memSize)) := by
  simp only [Config.memSize] at *
  induction n generalizing a with
  | zero => omega
  | succ n ih =>
    unfold State.readBlock State.memRead
    rw [hp]
    by_cases ha : a < 4096
    · simp only [ea]
      rw [if_pos (by omega)]
      simp only
      rw [ih (by omega) (by omega)]
      simp only
      congr 2
      omega
    · simp only [ea]
      rw [if_neg (by omega)]
      simp only
      congr 2
      omega

/-- Memory after a block of bytes is written from the natural-number address `a` on. -/
def Memory.writeBytes (p : Config.Params) (m : Memory) (a : Nat) : List Byte → Memory
  | [] => m
  | b :: bs => Memory.writeBytes p (m.write p (a % Config.memSize) b) (a + 1) bs

theorem Memory.wf_writeBytes (p : Config.Params) {m : Memory} (a : Nat) (bs : List Byte) (h : m.wf p = true) :
    (m.writeBytes p a bs).wf p = true := by
  induction bs generalizing m a with
  | nil => exact h
  | cons b bs ih => exact ih _ (Memory.wf_write p b h (Nat.mod_lt _ (by decide)))

/-- What a block write leaves at an address none of its bytes goes to. -/
theorem Memory.read_writeBytes_of_not (p : Config.Params) (m : Memory) (a : Nat) (bs : List Byte) (b : Nat)
    (h : ∀ i < bs.length, b ≠ (a + i) % Config.memSize) :
    (m.writeBytes p a bs).read p b = m.read p b := by
  induction bs generalizing m a with
  | nil => rfl
  | cons v bs ih =>
    rw [Memory.writeBytes, ih, Memory.read_write, if_neg (by simpa using h 0 (by simp))]
    intro i hi
    have := h (i + 1) (by simpa using hi)
    rwa [Nat.add_right_comm, ← Nat.add_assoc] at *

/-- What a block write of at most `MEM_SIZE` bytes leaves at the address of its byte `i`. -/
theorem Memory.read_writeBytes (p : Config.Params) (m : Memory) (a : Nat) (bs : List Byte)
    (hl : bs.length ≤ Config.memSize)
    (i : Nat) (hi : i < bs.length) :
    (m.writeBytes p a bs).read p ((a + i) % Config.memSize) = bs[i] := by
  induction bs generalizing m a i with
  | nil => simp at hi
  | cons v bs ih =>
    rw [List.length_cons] at hl hi
    cases i with
    | zero =>
      rw [Memory.writeBytes, Memory.read_writeBytes_of_not]
      · simp
      · intro j hj
        simp only [Config.memSize] at *
        omega
    | succ i =>
      have := ih (m.write p (a % Config.memSize) v) (a + 1) (by omega) i (by omega)
      rw [Memory.writeBytes, show a + (i + 1) = a + 1 + i by omega, this]
      rfl

theorem State.writeBlock_ok {s t : State} {a : Nat} {bs : List Byte} (h : s.writeBlock a bs = .ok t) :
    t = { s with mem := s.mem.writeBytes s.params a bs } := by
  induction bs generalizing s a with
  | nil => injection h with h; exact h.symm
  | cons b bs ih =>
    unfold State.writeBlock at h
    split at h
    · cases h
    · next s' hs => rw [ih h, State.memWrite_ok hs]; rfl

theorem State.writeBlock_of_addressable {s : State} {a : Nat} {bs : List Byte}
    (h : s.policy.addr = .mask ∨ a + bs.length ≤ Config.memSize) :
    s.writeBlock a bs = .ok { s with mem := s.mem.writeBytes s.params a bs } := by
  induction bs generalizing s a with
  | nil => rfl
  | cons b bs ih =>
    rw [List.length_cons] at h
    unfold State.writeBlock
    rw [State.memWrite_of_addressable b (h.imp_right (by omega))]
    exact ih (h.imp_right (by omega))

/-- The other case, as for a block that is read. -/
theorem State.writeBlock_fault {s : State} (hp : s.policy.addr = .fault) {a : Nat} {bs : List Byte}
    (h : Config.memSize < a + bs.length) (hn : 1 ≤ bs.length) :
    s.writeBlock a bs = .error (.addressOutOfRange (max a Config.memSize)) := by
  simp only [Config.memSize] at *
  induction bs generalizing s a with
  | nil => simp at hn
  | cons b bs ih =>
    rw [List.length_cons] at h
    unfold State.writeBlock State.memWrite
    rw [hp]
    by_cases ha : a < 4096
    · simp only [ea]
      rw [if_pos (by omega)]
      simp only
      rw [ih (s := s.setByte a b) hp (by omega) (by omega)]
      congr 2
      omega
    · simp only [ea]
      rw [if_neg (by omega)]
      simp only
      congr 2
      omega

/-! ### Call stack -/

theorem State.push_cases (s : State) (v : Word) :
    (s.params.stackDepth ≤ s.stack.length ∧ s.push v = .error .stackOverflow) ∨
    (s.stack.length < s.params.stackDepth ∧ s.push v = .ok { s with stack := s.stack ++ [v] }) := by
  unfold State.push
  split_ifs with h
  · exact .inl ⟨h, rfl⟩
  · exact .inr ⟨by omega, rfl⟩

theorem State.pop_cases (s : State) :
    (s.stack = [] ∧ s.pop = .error .stackUnderflow) ∨
    (∃ l v, s.stack = l ++ [v] ∧ s.pop = .ok (v, { s with stack := l })) := by
  unfold State.pop
  rcases List.eq_nil_or_concat s.stack with h | ⟨l, v, h⟩
  · exact .inl ⟨h, by simp [h]⟩
  · exact .inr ⟨l, v, by simpa using h, by simp [h]⟩

/-! ### Skips, `I` after a block transfer, result and flag -/

/-- A skip changes at most `pc`. -/
theorem State.skipIf_eq (s : State) (c : Bool) :
    s.skipIf c = { s with pc := if c then s.pc + 2 else s.pc } := by
  cases c <;> rfl

/-- The index step changes at most `I`. -/
theorem State.stepIndex_eq (s : State) (x : RegIdx) :
    s.stepIndex x =
      { s with I := match s.policy.loadStoreI with
                    | .unchanged => s.I
                    | .xPlusOne => s.I + BitVec.ofNat 16 (x.toNat + 1) } := by
  unfold State.stepIndex
  split <;> simp_all

/-- With a destination other than `VF`, the result and the flag are written and nothing else. -/
theorem State.setResultFlag_of_ne (s : State) {x : RegIdx} (hx : x ≠ regF) (r f t : Byte) :
    s.setResultFlag x r f t = (s.setReg x r).setReg regF f := by
  unfold State.setResultFlag; rw [if_pos hx]

/-- With destination `VF`, the policy's value is written; under `draw` one free choice is taken. -/
theorem State.setResultFlag_regF (s : State) (r f t : Byte) :
    s.setResultFlag regF r f t =
      match s.policy.vfAlias with
      | .draw => { s with choices := s.choices + 1 }.setReg regF (Config.drawByte s.choices)
      | .flagLast => s.setReg regF f
      | .textOrder => s.setReg regF t := by
  unfold State.setResultFlag
  rw [if_neg (by simp)]
  rfl

/-- Writing result and flag changes at most `V` and the count of free choices. -/
theorem State.setResultFlag_eq (s : State) (x : RegIdx) (r f t : Byte) :
    ∃ V n, s.setResultFlag x r f t = { s with V := V, choices := n } := by
  by_cases hx : x = regF
  · subst hx
    rw [State.setResultFlag_regF]
    split
    · exact ⟨_, _, rfl⟩
    · exact ⟨_, s.choices, rfl⟩
    · exact ⟨_, s.choices, rfl⟩
  · rw [State.setResultFlag_of_ne s hx]
    exact ⟨_, s.choices, rfl⟩

/-! ### Reset -/

/-- What a reset leaves, for an image that fits and for one that does not. -/
theorem State.resetWith_cases (s : State) (image : List Byte) :
    (image.length ≤ s.params.maxImage ∧
      s.resetWith image =
        { State.reset with
          pc := BitVec.ofNat 16 s.params.programBase
          disp := Display.dark s.params.displayW s.params.displayH
          status := Config.freeStatus s.choices, choices := s.choices + 1, strobes := s.strobes
          policy := s.policy, params := s.params
          mem := Memory.load s.params [] s.params.programBase image }) ∨
    (s.params.maxImage < image.length ∧
      s.resetWith image =
        { State.reset with
          pc := BitVec.ofNat 16 s.params.programBase
          disp := Display.dark s.params.displayW s.params.displayH
          status := .error .loadTooLarge, choices := s.choices + 1, strobes := s.strobes
          policy := s.policy, params := s.params, run := .halted .loadTooLarge }) := by
  unfold State.resetWith
  simp only
  split_ifs with h
  · exact .inr ⟨h, rfl⟩
  · exact .inl ⟨by omega, rfl⟩

/-! ### The environment's next strobe -/

theorem State.takeStrobe_cons {s : State} {b : Strobe} {rest : List Strobe}
    (h : s.strobes = b :: rest) : s.takeStrobe = (b, { s with strobes := rest }) := by
  unfold State.takeStrobe; rw [h]

theorem State.takeStrobe_nil {s : State} (h : s.strobes = []) :
    s.takeStrobe = (Config.strobe s.choices, { s with choices := s.choices + 1 }) := by
  unfold State.takeStrobe; rw [h]

/-- Taking a strobe changes at most the settled strobes and the count of free choices. -/
theorem State.takeStrobe_eq (s : State) :
    ∃ l n, s.takeStrobe.2 = { s with strobes := l, choices := n } := by
  cases h : s.strobes with
  | nil => rw [State.takeStrobe_nil h]; exact ⟨s.strobes, _, rfl⟩
  | cons b rest => rw [State.takeStrobe_cons h]; exact ⟨_, s.choices, rfl⟩

end Sys2Proof.Machine
end

