-- ==== Sys2Proof/Laws/Display.lean ====
section
/-! SUPPORT. The display: what an inverted pixel leaves, and what drawing a sprite leaves of every pixel
and of the collision flag (spec/45_display.md R217 to R222). -/

namespace Sys2Proof.Machine

/-! ### Shape and pixels -/

@[simp] theorem Display.pixel_dark (w h px py : Nat) : (Display.dark w h).pixel px py = false := by
  unfold Display.dark Display.pixel
  rw [List.getD_eq_getElem?_getD, List.getD_eq_getElem?_getD]
  by_cases hy : py < h <;> by_cases hx : px < w <;> simp [hy, hx]

theorem Display.shaped_iff {w h : Nat} {d : Display} :
    d.shaped w h = true ↔ d.length = h ∧ ∀ row ∈ d, row.length = w := by
  simp [Display.shaped]

@[simp] theorem Display.shaped_dark (w h : Nat) : (Display.dark w h).shaped w h = true := by
  rw [Display.shaped_iff]
  exact ⟨by simp [Display.dark], fun row hr => by rw [(List.mem_replicate.1 hr).2]; simp⟩

/-- In a display with the shape, the row of a pixel inside is there and has the width. -/
theorem Display.shaped_row {w h : Nat} {d : Display} (hd : d.shaped w h = true) {y : Nat} (hy : y < h) :
    ∃ row, d[y]? = some row ∧ row.length = w := by
  obtain ⟨h1, h2⟩ := Display.shaped_iff.1 hd
  have hy' : y < d.length := h1 ▸ hy
  exact ⟨d[y], List.getElem?_eq_getElem hy', h2 _ (List.getElem_mem hy')⟩

/-- Displays of one shape with the same pixels are the same. -/
theorem Display.ext_pixel {w h : Nat} {d e : Display} (hd : d.shaped w h = true)
    (he : e.shaped w h = true) (hp : ∀ px py, d.pixel px py = e.pixel px py) : d = e := by
  apply List.ext_getElem?
  intro y
  by_cases hy : y < h
  · obtain ⟨r, hr, hrl⟩ := Display.shaped_row hd hy
    obtain ⟨q, hq, hql⟩ := Display.shaped_row he hy
    rw [hr, hq]
    congr 1
    apply List.ext_getElem (hrl.trans hql.symm)
    intro x h1 h2
    have := hp x y
    simpa [Display.pixel, hr, hq, h1, h2] using this
  · have h1 := (Display.shaped_iff.1 hd).1
    have h2 := (Display.shaped_iff.1 he).1
    rw [List.getElem?_eq_none (by omega), List.getElem?_eq_none (by omega)]

/-! ### One inverted pixel -/

@[simp] theorem Display.invert_snd (d : Display) (x y : Nat) :
    (d.invert x y).2 = (d.invert x y).1.pixel x y := rfl

/-- Inverting keeps the rows' lengths, whatever they are. -/
@[simp] theorem Display.map_length_invert (d : Display) (x y : Nat) :
    (d.invert x y).1.map List.length = d.map List.length := by
  apply List.ext_getElem?
  intro j
  simp only [Display.invert, List.getElem?_map, List.getElem?_modify]
  cases d[j]? <;> simp
  split <;> simp

theorem Display.shaped_of_map_length {w h : Nat} {d e : Display}
    (he : e.map List.length = d.map List.length) (hd : d.shaped w h = true) : e.shaped w h = true := by
  obtain ⟨h1, h2⟩ := Display.shaped_iff.1 hd
  refine Display.shaped_iff.2 ⟨?_, fun row hr => ?_⟩
  · simpa [h1] using congrArg List.length he
  · have := List.mem_map_of_mem (f := List.length) hr
    rw [he, List.mem_map] at this
    obtain ⟨q, hq, hl⟩ := this
    rw [← hl, h2 q hq]

/-- Inverting one pixel of the display flips it and leaves every other. -/
theorem Display.pixel_invert {w h : Nat} {d : Display} (hd : d.shaped w h = true) {x y : Nat}
    (hx : x < w) (hy : y < h) (px py : Nat) :
    (d.invert x y).1.pixel px py = if px = x ∧ py = y then !d.pixel px py else d.pixel px py := by
  obtain ⟨row, hr, hl⟩ := Display.shaped_row hd hy
  unfold Display.invert Display.pixel
  simp only [List.getD_eq_getElem?_getD, List.getElem?_modify]
  by_cases hpy : py = y
  · subst hpy
    simp only [hr, if_true, Option.getD_some]
    by_cases hpx : px = x
    · subst hpx
      have : px < row.length := hl ▸ hx
      simp [this]
    · have : ¬ x = px := fun h => hpx h.symm
      simp [hpx, this]
  · have : ¬ y = py := fun h => hpy h.symm
    simp [hpy, this]

/-- Inverting a pixel twice restores the display, whatever its shape. -/
theorem Display.invert_invert (d : Display) (x y : Nat) : ((d.invert x y).1.invert x y).1 = d := by
  have row : ∀ r : List Bool, (r.modify x not).modify x not = r := by
    intro r
    apply List.ext_getElem?
    intro j
    simp only [List.getElem?_modify]
    cases r[j]? <;> simp
    split <;> simp
  apply List.ext_getElem?
  intro j
  simp only [Display.invert, List.getElem?_modify]
  cases d[j]? <;> simp
  split <;> simp [row]

/-- Two inverts may change places. -/
theorem Display.invert_comm (d : Display) (x y u v : Nat) :
    ((d.invert x y).1.invert u v).1 = ((d.invert u v).1.invert x y).1 := by
  have row : ∀ r : List Bool, (r.modify x not).modify u not = (r.modify u not).modify x not := by
    intro r
    apply List.ext_getElem?
    intro j
    simp only [List.getElem?_modify]
    cases r[j]? <;> simp
    split <;> split <;> simp
  apply List.ext_getElem?
  intro j
  simp only [Display.invert, List.getElem?_modify]
  cases d[j]? <;> simp
  split <;> split <;> simp [row]

/-! ### A list of pixels inverted in order -/

/-- One pixel inverted, with the collision seen so far. -/
def invertStep (acc : Display × Bool) (q : Nat × Nat) : Display × Bool :=
  ((acc.1.invert q.1 q.2).1, acc.2 || !(acc.1.invert q.1 q.2).2)

/-- The pixel goes from lit to unlit at some time while the listed pixels are inverted. -/
def goesOut (d : Display) (l : List (Nat × Nat)) (q : Nat × Nat) : Prop :=
  (1 ≤ l.count q ∧ d.pixel q.1 q.2 = true) ∨ 2 ≤ l.count q

theorem foldl_invertStep_map_length (l : List (Nat × Nat)) (acc : Display × Bool) :
    (l.foldl invertStep acc).1.map List.length = acc.1.map List.length := by
  induction l generalizing acc with
  | nil => rfl
  | cons q l ih => rw [List.foldl_cons, ih]; exact Display.map_length_invert ..

/-- What inverting a list of pixels of the display leaves: a pixel is flipped once for each time it is
listed, and a collision is seen exactly when one went from lit to unlit on the way. -/
theorem foldl_invertStep_spec {w h : Nat} (l : List (Nat × Nat)) (hl : ∀ q ∈ l, q.1 < w ∧ q.2 < h)
    (acc : Display × Bool) (hd : acc.1.shaped w h = true) :
    (∀ px py, (l.foldl invertStep acc).1.pixel px py =
      (acc.1.pixel px py ^^ decide (l.count (px, py) % 2 = 1))) ∧
    ((l.foldl invertStep acc).2 = true ↔ acc.2 = true ∨ ∃ q, goesOut acc.1 l q) := by
  induction l generalizing acc with
  | nil => simp [goesOut]
  | cons q l ih =>
    obtain ⟨⟨hx, hy⟩, hl⟩ := List.forall_mem_cons.1 hl
    have pix := Display.pixel_invert hd hx hy
    obtain ⟨ihp, ihc⟩ := ih hl (invertStep acc q)
      (Display.shaped_of_map_length (Display.map_length_invert ..) hd)
    have cnt : ∀ r : Nat × Nat, (q :: l).count r = l.count r + if r = q then 1 else 0 := by
      intro r; rw [List.count_cons]; exact congrArg _ (if_congr (beq_iff_eq.trans eq_comm) rfl rfl)
    constructor
    · intro px py
      rw [List.foldl_cons, ihp, cnt]
      simp only [invertStep, pix]
      by_cases hq : (px, py) = q
      · subst hq
        have hpar : decide ((l.count (px, py) + 1) % 2 = 1) = !decide (l.count (px, py) % 2 = 1) := by
          rw [← decide_not, decide_eq_decide]; omega
        rw [if_pos ⟨rfl, rfl⟩, if_pos rfl, hpar, Bool.not_xor, Bool.xor_not]
      · have hn : ¬ (px = q.1 ∧ py = q.2) := fun hc => hq (Prod.ext hc.1 hc.2)
        rw [if_neg hn, if_neg hq, Nat.add_zero]
    · rw [List.foldl_cons, ihc]
      have hnew : (invertStep acc q).2 = true ↔ acc.2 = true ∨ acc.1.pixel q.1 q.2 = true := by
        simp [invertStep, pix]
      have hgo : ∀ r, goesOut (invertStep acc q).1 l r ↔
          (1 ≤ l.count r ∧ (if r = q then !acc.1.pixel r.1 r.2 else acc.1.pixel r.1 r.2) = true) ∨
            2 ≤ l.count r := by
        intro r
        have : (r.1 = q.1 ∧ r.2 = q.2) ↔ r = q := Prod.ext_iff.symm
        simp only [goesOut, invertStep, pix, this]
      rw [hnew, or_assoc]
      refine or_congr_right ?_
      rw [exists_congr hgo]
      simp only [goesOut, cnt]
      constructor
      · rintro (hlit | ⟨r, hr⟩)
        · exact ⟨q, .inl ⟨by simp, hlit⟩⟩
        · refine ⟨r, ?_⟩
          by_cases hq : r = q
          · simp only [hq, if_true] at hr ⊢; rcases hr with ⟨h1, -⟩ | h2 <;> right <;> omega
          · simpa [hq] using hr
      · rintro ⟨r, hr⟩
        by_cases hq : r = q
        · subst hq
          simp only [if_true] at hr
          cases hlit : acc.1.pixel r.1 r.2
          · right
            refine ⟨r, .inl ⟨?_, by simp [hlit]⟩⟩
            rcases hr with ⟨-, h2⟩ | h2
            · rw [hlit] at h2; cases h2
            · omega
          · exact .inl rfl
        · exact .inr ⟨r, by simpa [hq] using hr⟩

/-- Inverting a list of pixels twice restores the display, whatever its shape. -/
theorem foldl_invertStep_twice (l : List (Nat × Nat)) (d : Display) (c c' : Bool) :
    (l.foldl invertStep ((l.foldl invertStep (d, c)).1, c')).1 = d := by
  have fst : ∀ (l : List (Nat × Nat)) (acc : Display × Bool),
      (l.foldl invertStep acc).1 = l.foldl (fun d q => (d.invert q.1 q.2).1) acc.1 := by
    intro l
    induction l with
    | nil => intro _; rfl
    | cons q l ih => intro acc; rw [List.foldl_cons, ih]; rfl
  have out : ∀ (l : List (Nat × Nat)) (d : Display) (q : Nat × Nat),
      l.foldl (fun d q => (d.invert q.1 q.2).1) (d.invert q.1 q.2).1 =
        ((l.foldl (fun d q => (d.invert q.1 q.2).1) d).invert q.1 q.2).1 := by
    intro l
    induction l with
    | nil => intro _ _; rfl
    | cons r l ih =>
      intro d q
      rw [List.foldl_cons, List.foldl_cons, Display.invert_comm, ih]
  rw [fst, fst]
  dsimp only
  induction l generalizing d with
  | nil => rfl
  | cons q l ih =>
    rw [List.foldl_cons, List.foldl_cons, out l d q, Display.invert_invert, ih]

/-! ### The pixels of a sprite -/

/-- The pixels one sprite row inverts, in order. -/
def rowCoords (w : Nat) (row : Byte) (cx py : Nat) : List (Nat × Nat) :=
  ((List.range 8).filter fun b => row.getLsbD (7 - b)).map fun b => ((cx + b) % w, py)

/-- The pixels a sprite inverts, in order. -/
def spriteCoords (w h cx : Nat) : Nat → List Byte → List (Nat × Nat)
  | _, [] => []
  | cy, row :: rows => rowCoords w row cx (cy % h) ++ spriteCoords w h cx (cy + 1) rows

theorem drawRow_eq (w : Nat) (row : Byte) (cx py : Nat) (acc : Display × Bool) :
    drawRow w row cx py acc = (rowCoords w row cx py).foldl invertStep acc := by
  rw [rowCoords, List.foldl_map, List.foldl_filter]
  rfl

/-- Drawing a sprite inverts its pixels in order. -/
theorem drawRows_eq (w h cx cy : Nat) (rows : List Byte) (acc : Display × Bool) :
    drawRows w h cx cy rows acc = (spriteCoords w h cx cy rows).foldl invertStep acc := by
  induction rows generalizing cy acc with
  | nil => rfl
  | cons row rows ih => rw [drawRows, spriteCoords, List.foldl_append, ih, drawRow_eq]

theorem spriteCoords_map (w h cx cy n : Nat) (f : Nat → Byte) :
    spriteCoords w h cx cy ((List.range n).map f) =
      (List.range n).flatMap fun r => rowCoords w (f r) cx ((cy + r) % h) := by
  induction n generalizing cy f with
  | zero => rfl
  | succ n ih =>
    rw [List.range_succ_eq_map, List.map_cons, List.map_map, spriteCoords, List.flatMap_cons,
      List.flatMap_map, ih]
    simp only [Function.comp_apply, Nat.add_zero, Nat.succ_eq_add_one, Nat.add_right_comm cy 1,
      Nat.add_assoc]

/-- The pixels Draw inverts are those of Safety.lean. -/
theorem State.spriteHits_eq (s : State) (x y : RegIdx) (n : Nat) :
    s.spriteHits x y n =
      spriteCoords s.params.displayW s.params.displayH (s.reg x).toNat (s.reg y).toNat
        (s.bytesAt s.I.toNat n) := by
  rw [State.bytesAt, spriteCoords_map]; rfl

theorem State.mem_spriteHits (s : State) (x y : RegIdx) (n px py : Nat) :
    (px, py) ∈ s.spriteHits x y n ↔ s.spriteCovers x y n px py := by
  simp only [State.spriteHits, State.spriteCovers, List.mem_flatMap, List.mem_map, List.mem_filter,
    List.mem_range, Prod.mk.injEq]
  constructor
  · rintro ⟨r, hr, b, ⟨hb, h1⟩, h2, h3⟩; exact ⟨r, hr, b, hb, h1, h2.symm, h3.symm⟩
  · rintro ⟨r, hr, b, hb, h1, h2, h3⟩; exact ⟨r, hr, b, ⟨hb, h1⟩, h2.symm, h3.symm⟩

/-- The pixels of a sprite lie inside a display that has any. -/
theorem State.spriteHits_inside (s : State) (x y : RegIdx) (n : Nat) (hw : 0 < s.params.displayW)
    (hh : 0 < s.params.displayH) :
    ∀ q ∈ s.spriteHits x y n, q.1 < s.params.displayW ∧ q.2 < s.params.displayH := by
  rintro ⟨px, py⟩ hq
  obtain ⟨r, -, b, -, -, h1, h2⟩ := (s.mem_spriteHits x y n px py).1 hq
  exact ⟨h1 ▸ Nat.mod_lt _ hw, h2 ▸ Nat.mod_lt _ hh⟩

/-- On a display at least as large as the sprite no pixel is met twice. -/
theorem State.spriteHits_nodup (s : State) (x y : RegIdx) (n : Nat) (hf : s.spriteFits n) :
    (s.spriteHits x y n).Nodup := by
  obtain ⟨hw, hh⟩ := hf
  have modlt : ∀ {a i j m : Nat}, i < j → j - i < m → (a + i) % m = (a + j) % m → False := by
    intro a i j m hij hm he
    have := Nat.sub_mod_eq_zero_of_mod_eq he.symm
    rw [show a + j - (a + i) = j - i by omega, Nat.mod_eq_of_lt hm] at this
    omega
  have modinj : ∀ {a i j m : Nat}, i < m → j < m → (a + i) % m = (a + j) % m → i = j := by
    intro a i j m hi hj he
    rcases Nat.lt_trichotomy i j with h | h | h
    · exact (modlt h (by omega) he).elim
    · exact h
    · exact (modlt h (by omega) he.symm).elim
  rw [State.spriteHits, List.nodup_flatMap]
  constructor
  · intro r _
    refine List.Nodup.map_on ?_ (List.nodup_range.filter _)
    intro b hb c hc he
    have hb := List.mem_range.1 (List.mem_filter.1 hb).1
    have hc := List.mem_range.1 (List.mem_filter.1 hc).1
    exact modinj (by omega) (by omega) (Prod.mk.inj he).1
  · refine List.Nodup.pairwise_of_forall_ne List.nodup_range ?_
    intro r hr q hq hne
    rw [Function.onFun, List.disjoint_left]
    rintro p hp hp'
    obtain ⟨b, -, rfl⟩ := List.mem_map.1 hp
    obtain ⟨c, -, he⟩ := List.mem_map.1 hp'
    exact hne (modinj (by have := List.mem_range.1 hr; omega)
      (by have := List.mem_range.1 hq; omega) (Prod.mk.inj he).2.symm)

end Sys2Proof.Machine
end

