-- ==== Sys2Proof/Laws/Params.lean ====
section
/-! SUPPORT. What the check of the parameters says. -/

namespace Sys2Proof.Config

theorem Params.wf_iff (p : Params) :
    p.wf = true ↔
      0 < p.displayW ∧ 0 < p.displayH ∧ p.programBase ≤ memSize ∧
        p.fontBase + p.fontSize ≤ memSize ∧ p.font.length = p.fontSize := by
  simp [Params.wf, and_assoc]

/-- The reference parameters make a machine. -/
theorem Params.reference_wf : Params.reference.wf = true := by decide

end Sys2Proof.Config
end

