-- ==== Sys2Proof/Laws/PerInstr.lean ====
section
/-! SUPPORT. Statements made per instruction. The family OpcodeRow: the encoder's word of an instruction
lies in that instruction's row of the opcode map (spec/30_encoding.md R100). -/

namespace Sys2Proof.Laws.OpcodeRow

/-- The row's mask. For 5XY0 and 9XY0 the narrower one, of LOW_NIBBLE_5_9 = malformed. -/
def mask : Instr → Word
  | .clear => 0xFFFF
  | .ret => 0xFFFF
  | .incompatibleProgram _ => 0xF000
  | .jump _ => 0xF000
  | .call _ => 0xF000
  | .skipIfVxEqualsNn _ _ => 0xF000
  | .skipIfVxNotEqualsNn _ _ => 0xF000
  | .skipIfVxEqualsVy _ _ => 0xF00F
  | .setImmediate _ _ => 0xF000
  | .addImmediate _ _ => 0xF000
  | .copy _ _ => 0xF00F
  | .or _ _ => 0xF00F
  | .and _ _ => 0xF00F
  | .xor _ _ => 0xF00F
  | .add _ _ => 0xF00F
  | .subtract _ _ => 0xF00F
  | .rightShift _ _ => 0xF00F
  | .setVxToVyMinusVx _ _ => 0xF00F
  | .leftShift _ _ => 0xF00F
  | .skipIfVxNotEqualsVy _ _ => 0xF00F
  | .setIndexRegister _ => 0xF000
  | .jumpWithPcOffset _ => 0xF000
  | .random _ _ => 0xF000
  | .draw _ _ _ => 0xF000
  | .skipIfKeyPressed _ => 0xF0FF
  | .skipIfKeyNotPressed _ => 0xF0FF
  | .setVxToDelayTimer _ => 0xF0FF
  | .awaitKeyInput _ => 0xF0FF
  | .setDelayTimer _ => 0xF0FF
  | .setSoundTimer _ => 0xF0FF
  | .addToIndex _ => 0xF0FF
  | .setIndexToFontCharacter _ => 0xF0FF
  | .setIndexToBinaryCodedVx _ => 0xF0FF
  | .dumpRegisters _ => 0xF0FF
  | .loadRegisters _ => 0xF0FF

/-- The row's match. -/
def pattern : Instr → Word
  | .clear => 0x00E0
  | .ret => 0x00EE
  | .incompatibleProgram _ => 0x0000
  | .jump _ => 0x1000
  | .call _ => 0x2000
  | .skipIfVxEqualsNn _ _ => 0x3000
  | .skipIfVxNotEqualsNn _ _ => 0x4000
  | .skipIfVxEqualsVy _ _ => 0x5000
  | .setImmediate _ _ => 0x6000
  | .addImmediate _ _ => 0x7000
  | .copy _ _ => 0x8000
  | .or _ _ => 0x8001
  | .and _ _ => 0x8002
  | .xor _ _ => 0x8003
  | .add _ _ => 0x8004
  | .subtract _ _ => 0x8005
  | .rightShift _ _ => 0x8006
  | .setVxToVyMinusVx _ _ => 0x8007
  | .leftShift _ _ => 0x800E
  | .skipIfVxNotEqualsVy _ _ => 0x9000
  | .setIndexRegister _ => 0xA000
  | .jumpWithPcOffset _ => 0xB000
  | .random _ _ => 0xC000
  | .draw _ _ _ => 0xD000
  | .skipIfKeyPressed _ => 0xE09E
  | .skipIfKeyNotPressed _ => 0xE0A1
  | .setVxToDelayTimer _ => 0xF007
  | .awaitKeyInput _ => 0xF00A
  | .setDelayTimer _ => 0xF015
  | .setSoundTimer _ => 0xF018
  | .addToIndex _ => 0xF01E
  | .setIndexToFontCharacter _ => 0xF029
  | .setIndexToBinaryCodedVx _ => 0xF033
  | .dumpRegisters _ => 0xF055
  | .loadRegisters _ => 0xF065

/-- The encoder's word selects the instruction's row: `op AND mask = match`. -/
def Statement (i : Instr) : Prop := encode i &&& mask i = pattern i

/-- A word of selector, `nnn`, masked to the selector. -/
theorem nnn_row (k : BitVec 4) (nnn : Addr) :
    (k ++ nnn : Word) &&& 0xF000 = k ++ 0#12 := by
  rw [show (0xF000 : Word) = 0xF#4 ++ 0x000#12 from rfl, BitVec.and_append]
  congr 1
  · exact BitVec.and_allOnes
  · exact BitVec.and_zero

/-- A word of selector, `x` and a byte, masked to the selector. -/
theorem xnn_row (k : BitVec 4) (x : RegIdx) (nn : Byte) :
    (k ++ x ++ nn : Word) &&& 0xF000 = k ++ 0#4 ++ 0#8 := by
  rw [show (0xF000 : Word) = 0xF#4 ++ 0x0#4 ++ 0x00#8 from rfl, BitVec.and_append,
    BitVec.and_append]
  congr 1
  · congr 1
    · exact BitVec.and_allOnes
    · exact BitVec.and_zero
  · exact BitVec.and_zero

/-- A word of selector, `x` and a byte, masked to the selector and the byte. -/
theorem x_row (k : BitVec 4) (x : RegIdx) (b : Byte) :
    (k ++ x ++ b : Word) &&& 0xF0FF = k ++ 0#4 ++ b := by
  rw [show (0xF0FF : Word) = 0xF#4 ++ 0x0#4 ++ 0xFF#8 from rfl, BitVec.and_append,
    BitVec.and_append]
  congr 1
  · congr 1
    · exact BitVec.and_allOnes
    · exact BitVec.and_zero
  · exact BitVec.and_allOnes

/-- A word of selector, `x`, `y` and a nibble, masked to the selector and the nibble. -/
theorem xy_row (k : BitVec 4) (x y : RegIdx) (n : BitVec 4) :
    (k ++ x ++ y ++ n : Word) &&& 0xF00F = k ++ 0#4 ++ 0#4 ++ n := by
  rw [show (0xF00F : Word) = 0xF#4 ++ 0x0#4 ++ 0x0#4 ++ 0xF#4 from rfl, BitVec.and_append,
    BitVec.and_append, BitVec.and_append]
  congr 1
  · congr 1
    · congr 1
      · exact BitVec.and_allOnes
      · exact BitVec.and_zero
    · exact BitVec.and_zero
  · exact BitVec.and_allOnes

/-- A word of selector, `x`, `y` and a nibble, masked to the selector. -/
theorem xyn_row (k : BitVec 4) (x y : RegIdx) (n : BitVec 4) :
    (k ++ x ++ y ++ n : Word) &&& 0xF000 = k ++ 0#4 ++ 0#4 ++ 0#4 := by
  rw [show (0xF000 : Word) = 0xF#4 ++ 0x0#4 ++ 0x0#4 ++ 0x0#4 from rfl, BitVec.and_append,
    BitVec.and_append, BitVec.and_append]
  congr 1
  · congr 1
    · congr 1
      · exact BitVec.and_allOnes
      · exact BitVec.and_zero
    · exact BitVec.and_zero
  · exact BitVec.and_zero

theorem clear : Statement .clear := rfl
theorem ret : Statement .ret := rfl
theorem incompatibleProgram (nnn : Addr) : Statement (.incompatibleProgram nnn) := nnn_row 0x0#4 nnn
theorem jump (nnn : Addr) : Statement (.jump nnn) := nnn_row 0x1#4 nnn
theorem call (nnn : Addr) : Statement (.call nnn) := nnn_row 0x2#4 nnn
theorem skipIfVxEqualsNn (x : RegIdx) (nn : Byte) : Statement (.skipIfVxEqualsNn x nn) := xnn_row 0x3#4 x nn
theorem skipIfVxNotEqualsNn (x : RegIdx) (nn : Byte) : Statement (.skipIfVxNotEqualsNn x nn) := xnn_row 0x4#4 x nn
theorem skipIfVxEqualsVy (x : RegIdx) (y : RegIdx) : Statement (.skipIfVxEqualsVy x y) := xy_row 0x5#4 x y 0x0#4
theorem setImmediate (x : RegIdx) (nn : Byte) : Statement (.setImmediate x nn) := xnn_row 0x6#4 x nn
theorem addImmediate (x : RegIdx) (nn : Byte) : Statement (.addImmediate x nn) := xnn_row 0x7#4 x nn
theorem copy (x : RegIdx) (y : RegIdx) : Statement (.copy x y) := xy_row 0x8#4 x y 0x0#4
theorem or (x : RegIdx) (y : RegIdx) : Statement (.or x y) := xy_row 0x8#4 x y 0x1#4
theorem and (x : RegIdx) (y : RegIdx) : Statement (.and x y) := xy_row 0x8#4 x y 0x2#4
theorem xor (x : RegIdx) (y : RegIdx) : Statement (.xor x y) := xy_row 0x8#4 x y 0x3#4
theorem add (x : RegIdx) (y : RegIdx) : Statement (.add x y) := xy_row 0x8#4 x y 0x4#4
theorem subtract (x : RegIdx) (y : RegIdx) : Statement (.subtract x y) := xy_row 0x8#4 x y 0x5#4
theorem rightShift (x : RegIdx) (y : RegIdx) : Statement (.rightShift x y) := xy_row 0x8#4 x y 0x6#4
theorem setVxToVyMinusVx (x : RegIdx) (y : RegIdx) : Statement (.setVxToVyMinusVx x y) := xy_row 0x8#4 x y 0x7#4
theorem leftShift (x : RegIdx) (y : RegIdx) : Statement (.leftShift x y) := xy_row 0x8#4 x y 0xE#4
theorem skipIfVxNotEqualsVy (x : RegIdx) (y : RegIdx) : Statement (.skipIfVxNotEqualsVy x y) := xy_row 0x9#4 x y 0x0#4
theorem setIndexRegister (nnn : Addr) : Statement (.setIndexRegister nnn) := nnn_row 0xA#4 nnn
theorem jumpWithPcOffset (nnn : Addr) : Statement (.jumpWithPcOffset nnn) := nnn_row 0xB#4 nnn
theorem random (x : RegIdx) (nn : Byte) : Statement (.random x nn) := xnn_row 0xC#4 x nn
theorem draw (x : RegIdx) (y : RegIdx) (n : BitVec 4) : Statement (.draw x y n) := xyn_row 0xD#4 x y n
theorem skipIfKeyPressed (x : RegIdx) : Statement (.skipIfKeyPressed x) := x_row 0xE#4 x 0x9E#8
theorem skipIfKeyNotPressed (x : RegIdx) : Statement (.skipIfKeyNotPressed x) := x_row 0xE#4 x 0xA1#8
theorem setVxToDelayTimer (x : RegIdx) : Statement (.setVxToDelayTimer x) := x_row 0xF#4 x 0x07#8
theorem awaitKeyInput (x : RegIdx) : Statement (.awaitKeyInput x) := x_row 0xF#4 x 0x0A#8
theorem setDelayTimer (x : RegIdx) : Statement (.setDelayTimer x) := x_row 0xF#4 x 0x15#8
theorem setSoundTimer (x : RegIdx) : Statement (.setSoundTimer x) := x_row 0xF#4 x 0x18#8
theorem addToIndex (x : RegIdx) : Statement (.addToIndex x) := x_row 0xF#4 x 0x1E#8
theorem setIndexToFontCharacter (x : RegIdx) : Statement (.setIndexToFontCharacter x) := x_row 0xF#4 x 0x29#8
theorem setIndexToBinaryCodedVx (x : RegIdx) : Statement (.setIndexToBinaryCodedVx x) := x_row 0xF#4 x 0x33#8
theorem dumpRegisters (x : RegIdx) : Statement (.dumpRegisters x) := x_row 0xF#4 x 0x55#8
theorem loadRegisters (x : RegIdx) : Statement (.loadRegisters x) := x_row 0xF#4 x 0x65#8

end Sys2Proof.Laws.OpcodeRow
end

