-- ==== Sys2Proof/Laws/Step.lean ====
section
/-! SUPPORT. What a fetch, a cycle and a step can do, said once. -/

namespace Sys2Proof.Machine

/-- The word at `pc`, whenever its addresses are in reach. -/
theorem State.fetchWord_ok {s : State} {op : Word} (h : s.fetchWord = .ok op) : op = s.wordAtPc := by
  unfold State.fetchWord at h
  split at h
  · cases h
  · next hi hhi =>
    split at h
    · cases h
    · next lo hlo =>
      injection h with h
      rw [← h, State.memRead_ok hhi, State.memRead_ok hlo]; rfl

theorem State.fetchWord_of_addressable {s : State}
    (ha : s.policy.addr = .mask ∨ s.pc.toNat + 2 ≤ Config.memSize) :
    s.fetchWord = .ok s.wordAtPc := by
  unfold State.fetchWord
  rw [State.memRead_of_addressable (ha.imp_right (by omega))]
  simp only
  rw [State.memRead_of_addressable (ha.imp_right (by omega))]
  rfl

/-- A fetch that ODD_PC_POLICY does not stop is the word's. -/
theorem State.fetch_of_aligned {s : State} (ho : s.policy.oddPc = .fetch ∨ s.pc.toNat % 2 = 0) :
    s.fetch = s.fetchWord := by
  unfold State.fetch
  rw [if_neg]
  rintro ⟨h1, h2⟩
  rcases ho with h | h
  · rw [h] at h1; cases h1
  · omega

theorem State.fetch_of_misaligned {s : State} (ho : s.policy.oddPc = .fault)
    (hp : s.pc.toNat % 2 = 1) : s.fetch = .error (.misalignedFetch s.pc) := by
  unfold State.fetch; rw [if_pos ⟨ho, hp⟩]

/-- The word a fetch gives, whenever it gives one. -/
theorem State.fetch_ok {s : State} {op : Word} (h : s.fetch = .ok op) : op = s.wordAtPc := by
  unfold State.fetch at h
  split at h
  · cases h
  · exact State.fetchWord_ok h

/-- The fetch, in the terms of Safety.lean. -/
theorem State.fetch_eq_wordAtPc {s : State} (h : s.fetchable) : s.fetch = .ok s.wordAtPc :=
  (State.fetch_of_aligned h.1).trans (State.fetchWord_of_addressable h.2)

/-! ### A cycle -/

theorem State.cycle_of_running {s : State} (h : s.run = .running) : s.cycle = s.runCycle := by
  unfold State.cycle; rw [h]

theorem State.cycle_of_halted {s : State} {e : Error} (h : s.run = .halted e) :
    s.cycle = .next (s.reportHalt e) := by
  unfold State.cycle; rw [h]

theorem State.runCycle_of_fault {s : State} {f : Fault} (h : s.fetch = .error f) :
    s.runCycle = .fault f := by
  unfold State.runCycle; rw [h]

theorem State.runCycle_of_malformed {s : State} {op : Word} {e : Error} (h : s.fetch = .ok op)
    (hd : decode s.policy.lowNibble op = .error e) : s.runCycle = .next (s.raise e) := by
  unfold State.runCycle; simp only [h, hd]

theorem State.runCycle_of_decoded {s : State} {op : Word} {i : Instr} (h : s.fetch = .ok op)
    (hd : decode s.policy.lowNibble op = .ok i) : s.runCycle = exec i s := by
  unfold State.runCycle; simp only [h, hd]

/-- A cycle that answers a next state: halted and reporting, a malformed word halting, or the decoded
instruction executed. -/
theorem State.cycle_next {s t : State} (h : s.cycle = .next t) :
    (∃ e, s.run = .halted e ∧ t = s.reportHalt e) ∨
    (s.run = .running ∧ ∃ op, s.fetch = .ok op ∧
      ((∃ e, decode s.policy.lowNibble op = .error e ∧ t = s.raise e) ∨
       (∃ i, decode s.policy.lowNibble op = .ok i ∧ exec i s = .next t))) := by
  unfold State.cycle at h
  split at h
  · next e he => injection h with h; exact .inl ⟨e, he, h.symm⟩
  · next hr =>
    unfold State.runCycle at h
    split at h
    · cases h
    · next op hop =>
      refine .inr ⟨hr, op, hop, ?_⟩
      split at h
      · next e he => injection h with h; exact .inl ⟨e, he, h.symm⟩
      · next i hi => exact .inr ⟨i, hi, h⟩

/-! ### A step -/

theorem step_eq (s : State) : step s = s.takeStrobe.2.strobe s.takeStrobe.1 := rfl

theorem step_of_cons {s : State} {b : Strobe} {rest : List Strobe} (h : s.strobes = b :: rest) :
    step s = { s with strobes := rest }.strobe b := by
  rw [step_eq, State.takeStrobe_cons h]

/-- A step whose next strobe is a cycle is that cycle, from the state in which the strobe is taken. -/
theorem step_of_cycle {s : State} (h : s.cycleNext) : step s = s.takeStrobe.2.cycle := by
  rw [step_eq, h]; rfl

/-- A step that answers a next state is a cycle's, a tick, a key update or a reset. -/
theorem step_next {s t : State} (h : step s = .next t) :
    (s.takeStrobe.1 = .cycle ∧ s.takeStrobe.2.cycle = .next t) ∨
    (s.takeStrobe.1 = .tick ∧ t = s.takeStrobe.2.tick) ∨
    (∃ k, s.takeStrobe.1 = .keyIn k ∧ t = s.takeStrobe.2.keyIn k) ∨
    (∃ image, s.takeStrobe.1 = .reset image ∧ t = s.takeStrobe.2.resetWith image) := by
  rw [step_eq] at h
  cases hb : s.takeStrobe.1 <;> rw [hb] at h
  case cycle => exact .inl ⟨rfl, h⟩
  case tick => injection h with h; exact .inr (.inl ⟨rfl, h.symm⟩)
  case keyIn k => injection h with h; exact .inr (.inr (.inl ⟨k, rfl, h.symm⟩))
  case reset image => injection h with h; exact .inr (.inr (.inr ⟨image, rfl, h.symm⟩))

end Sys2Proof.Machine
end

