-- ==== Sys2Proof/Tests/Slice0.lean ====
section
/-! SUPPORT. Tests. The expected results are those of spec/95_test_vectors.md (the vector's name stands in
the docstring) or of the rule named; the witnesses show that the hypotheses of the obligations are met. -/

namespace Sys2Proof.Tests

open Sys2Proof.Machine

set_option Elab.async false

/-! ### Helpers -/

/-- The state after one step that runs the word `w` at `pc`, seen through `f`. -/
def sees {α : Type} (s : State) (w : Nat) (f : State → α) : Option α :=
  match step (s.withFetchWord 16 w) with
  | .next t => some (f t)
  | _ => none

/-- The model fault of one step that runs the word `w` at `pc`. -/
def faults (s : State) (w : Nat) : Option Fault :=
  match step (s.withFetchWord 16 w) with
  | .fault f => some f
  | _ => none

/-- The state after one step, seen through `f`. -/
def after {α : Type} (s : State) (f : State → α) : Option α :=
  match step s with
  | .next t => some (f t)
  | _ => none

/-- The state with a cycle next. -/
def cycling (s : State) : State := { s with strobes := [.cycle] }

/-- Other parameters than the reference: a stack of 1, a display of 4 x 2, program base 0xF00, a font of
one-byte glyphs at 0x010. -/
def smallParams : Config.Params where
  stackDepth := 1
  displayW := 4
  displayH := 2
  programBase := 0xF00
  fontBase := 0x010
  glyphSize := 1
  font := List.replicate 16 0xAA

/-- Reset under those parameters. -/
def small : State :=
  { State.reset with params := smallParams, disp := Display.dark 4 2, pc := 0xF00 }

/-- Reset, then `V[x] = a`. -/
def with1 (x : RegIdx) (a : Byte) : State := State.reset.setReg x a

/-- Reset, then `V[x] = a` and `V[y] = b`. -/
def with2 (x : RegIdx) (a : Byte) (y : RegIdx) (b : Byte) : State := (with1 x a).setReg y b

/-- Reset with the given setting of VF_ALIAS_POLICY. -/
def aliasState (p : Config.VfAliasPolicy) (x : RegIdx) (a : Byte) (y : RegIdx) (b : Byte) : State :=
  { with2 x a y b with policy := { Config.Policy.reference with vfAlias := p } }

/-- Reset under ADDR_POLICY = fault. -/
def addrFault : State := { State.reset with policy := { Config.Policy.reference with addr := .fault } }

/-- Reset under ODD_PC_POLICY = fault. -/
def oddFault : State := { State.reset with policy := { Config.Policy.reference with oddPc := .fault } }

/-- Reset with the pixel at the top left lit. -/
def litCorner : State := { State.reset with disp := ((Display.dark 64 32).invert 0 0).1 }

/-- The lit pixels, as (x, y), row by row. -/
def litPixels (s : State) : List (Nat × Nat) :=
  (List.range 32).flatMap fun y =>
    ((List.range 64).filter fun x =>
      s.disp.pixel x y).map fun x => (x, y)

/-! ### Well-formedness -/

/-- R96, R100: the words 00E0 and 00EE are not of the row 0NNN. -/
theorem test_wellFormed_refuses_00E0 : wellFormed (.incompatibleProgram 0x0E0) = false := by decide
theorem test_wellFormed_refuses_00EE : wellFormed (.incompatibleProgram 0x0EE) = false := by decide
theorem test_wellFormed_accepts_0123 : wellFormed (.incompatibleProgram 0x123) = true := by decide

/-! ### Decoding: words written out from the patterns of R100 -/

theorem test_decode_control :
    [0b0000_0000_1110_0000, 0b0000_0000_1110_1110, 0b0000_0001_0010_0011, 0b0001_1010_1011_1100,
     0b0010_0011_0000_0001, 0b0011_0001_0000_0101, 0b0100_0001_0000_0101, 0b0101_0001_0010_0000,
     0b1001_0001_0010_0000, 0b1011_0101_1111_1111].map (decodeTableWord 16) =
    [some .clear, some .ret, some (.incompatibleProgram 0x123), some (.jump 0xABC),
     some (.call 0x301), some (.skipIfVxEqualsNn 1 5), some (.skipIfVxNotEqualsNn 1 5),
     some (.skipIfVxEqualsVy 1 2), some (.skipIfVxNotEqualsVy 1 2),
     some (.jumpWithPcOffset 0x5FF)] := by decide

theorem test_decode_arithmetic :
    [0b0110_1111_0001_0010, 0b0111_0000_0000_0010, 0b1000_0010_0111_0000, 0b1000_0000_0001_0001,
     0b1000_0000_0001_0010, 0b1000_0000_0001_0011, 0b1000_0001_0010_0100, 0b1000_0001_0010_0101,
     0b1000_0001_0010_0110, 0b1000_0001_0010_0111, 0b1000_1111_1111_1110].map (decodeTableWord 16) =
    [some (.setImmediate 0xF 0x12), some (.addImmediate 0 2), some (.copy 2 7), some (.or 0 1),
     some (.and 0 1), some (.xor 0 1), some (.add 1 2), some (.subtract 1 2),
     some (.rightShift 1 2), some (.setVxToVyMinusVx 1 2), some (.leftShift 0xF 0xF)] := by decide

theorem test_decode_memory_random_display :
    [0b1010_1011_1100_1101, 0b1111_1111_0001_1110, 0b1111_0000_0010_1001, 0b1111_0000_0011_0011,
     0b1111_0011_0101_0101, 0b1111_0010_0110_0101, 0b1100_0011_1111_0000,
     0b1101_0001_0010_0101].map (decodeTableWord 16) =
    [some (.setIndexRegister 0xBCD), some (.addToIndex 0xF), some (.setIndexToFontCharacter 0),
     some (.setIndexToBinaryCodedVx 0), some (.dumpRegisters 3), some (.loadRegisters 2),
     some (.random 3 0xF0), some (.draw 1 2 5)] := by decide

theorem test_decode_keypad_timers :
    [0b1110_1111_1001_1110, 0b1110_0100_1010_0001, 0b1111_0101_0000_1010, 0b1111_0011_0000_0111,
     0b1111_0000_0001_0101, 0b1111_0001_0001_1000].map (decodeTableWord 16) =
    [some (.skipIfKeyPressed 0xF), some (.skipIfKeyNotPressed 4), some (.awaitKeyInput 5),
     some (.setVxToDelayTimer 3), some (.setDelayTimer 0), some (.setSoundTimer 1)] := by decide

/-- E2 to E6: the whole-word comparison of selector 0. -/
theorem test_decode_selector0 :
    [0x0000, 0x00E1, 0x01E0, 0x0FEE, 0x0FFF].map (decodeTableWord 16) =
    [some (.incompatibleProgram 0x000), some (.incompatibleProgram 0x0E1),
     some (.incompatibleProgram 0x1E0), some (.incompatibleProgram 0xFEE),
     some (.incompatibleProgram 0xFFF)] := by decide

/-- E7, E8, E10, E12: malformed words. -/
theorem test_decode_malformed :
    [0x800F, 0x8FF9, 0x8FFA, 0x8FFB, 0x8FFC, 0x8FFD, 0xE09F, 0xE0A0, 0xE000, 0xF000, 0xF0FF, 0xF056,
     0xF066].map (decodeTableWord 16) = List.replicate 13 none := by decide

/-- E13, E14: LOW_NIBBLE_5_9. -/
theorem test_decode_low_nibble :
    decode .ignore 0x5121 = .ok (.skipIfVxEqualsVy 1 2) ∧
    decode .malformed 0x5121 = .error (.malformedInstruction 0x5121) ∧
    decode .ignore 0x912F = .ok (.skipIfVxNotEqualsVy 1 2) ∧
    decode .malformed 0x912F = .error (.malformedInstruction 0x912F) := ⟨rfl, rfl, rfl, rfl⟩

/-- R66, R90: the high byte first; one byte is no instruction. -/
theorem test_decode_bytes :
    decodeBytes .ignore [0x1A, 0xBC, 0x77] = .ok (.jump 0xABC, [0x77]) ∧
    decodeBytes .ignore [0x1A] = .error .truncated := ⟨rfl, rfl⟩

/-- R100: the encoder. -/
theorem test_encode : [encode (.draw 1 2 5), encode (.loadRegisters 2), encode (.jump 0xABC)] =
    [0xD125, 0xF265, 0x1ABC] := by decide

/-! ### Control flow -/

/-- C1 -/
theorem test_jump : sees State.reset 0x1ABC (·.pc) = some 0xABC := by decide +kernel
/-- C3 -/
theorem test_call : sees { State.reset with pc := 0x204 } 0x220A (fun t => (t.stack, t.pc)) =
    some ([0x206], 0x20A) := by decide +kernel
/-- C4 -/
theorem test_call_overflow :
    sees { State.reset with stack := List.replicate 16 0x300 } 0x2300
      (fun t => (t.run, t.status.code, t.pc, t.stack.length)) =
    some (.halted .stackOverflow, 3, 0x200, 16) := by decide +kernel
/-- C8 -/
theorem test_return : sees { State.reset with pc := 0x400, stack := [0x202, 0x30A] } 0x00EE
    (fun t => (t.pc, t.stack)) = some (0x30A, [0x202]) := by decide +kernel
/-- C7 -/
theorem test_return_underflow : sees State.reset 0x00EE (fun t => (t.run, t.status.code, t.pc)) =
    some (.halted .stackUnderflow, 4, 0x200) := by decide +kernel
/-- C10 -/
theorem test_jumpWithPcOffset : sees (with1 0 0xFF) 0xBFFF (·.pc) = some 0x10FE := by decide +kernel
/-- C11 -/
theorem test_jumpWithPcOffset_reads_V0 : sees (with1 1 0x50) 0xB201 (·.pc) = some 0x201 := by
  decide +kernel
/-- C12, C13 -/
theorem test_skipIfVxEqualsNn : sees (with1 1 5) 0x3105 (·.pc) = some 0x204 ∧
    sees (with1 1 6) 0x3105 (·.pc) = some 0x202 := by decide +kernel
/-- C14, C15 -/
theorem test_skipIfVxNotEqualsNn : sees (with1 1 5) 0x4105 (·.pc) = some 0x202 ∧
    sees (with1 1 6) 0x4105 (·.pc) = some 0x204 := by decide +kernel
/-- C16; C12's other side for registers by R147 -/
theorem test_skipIfVxEqualsVy : sees (with2 1 0x33 2 0x33) 0x5120 (·.pc) = some 0x204 ∧
    sees (with2 1 0x33 2 0x34) 0x5120 (·.pc) = some 0x202 := by decide +kernel
/-- C18, C19 -/
theorem test_skipIfVxNotEqualsVy : sees (with2 1 1 2 2) 0x9120 (·.pc) = some 0x204 ∧
    sees (with1 1 1) 0x9110 (·.pc) = some 0x202 := by decide +kernel

/-! ### Arithmetic -/

/-- L1-4, A1, A4 and A5 -/
theorem test_add : sees (with2 0 0xC8 1 0x37) 0x8014 (fun t => (t.reg 0, t.reg 0xF)) = some (0xFF, 0) ∧
    sees (with2 0 0xFF 1 1) 0x8014 (fun t => (t.reg 0, t.reg 0xF)) = some (0, 1) ∧
    sees (with1 0 0x90) 0x8004 (fun t => (t.reg 0, t.reg 0xF)) = some (0x20, 1) ∧
    sees (with2 0 0x10 0xF 5) 0x80F4 (fun t => (t.reg 0, t.reg 0xF)) = some (0x15, 0) := by
  decide +kernel
/-- A26 -/
theorem test_add_alias : sees (aliasState .flagLast 0xF 0xFF 1 1) 0x8F14 (·.reg 0xF) = some 1 ∧
    sees (aliasState .textOrder 0xF 0xFF 1 1) 0x8F14 (·.reg 0xF) = some 1 := by decide +kernel
/-- A6, A7, A8 -/
theorem test_subtract : sees (with2 1 5 2 3) 0x8125 (fun t => (t.reg 1, t.reg 0xF)) = some (2, 1) ∧
    sees (with2 1 3 2 5) 0x8125 (fun t => (t.reg 1, t.reg 0xF)) = some (0xFE, 0) ∧
    sees (with1 1 0x42) 0x8115 (fun t => (t.reg 1, t.reg 0xF)) = some (0, 1) := by decide +kernel
/-- A27 -/
theorem test_subtract_alias : sees (aliasState .flagLast 0xF 5 1 3) 0x8F15 (·.reg 0xF) = some 1 ∧
    sees (aliasState .textOrder 0xF 5 1 3) 0x8F15 (·.reg 0xF) = some 1 := by decide +kernel
/-- A9, A10 -/
theorem test_setVxToVyMinusVx :
    sees (with2 1 5 2 3) 0x8127 (fun t => (t.reg 1, t.reg 0xF)) = some (0xFE, 0) ∧
    sees (with2 1 3 2 5) 0x8127 (fun t => (t.reg 1, t.reg 0xF)) = some (2, 1) := by decide +kernel
/-- A30 -/
theorem test_setVxToVyMinusVx_alias :
    sees (aliasState .flagLast 0xF 5 1 3) 0x8F17 (·.reg 0xF) = some 0 ∧
    sees (aliasState .textOrder 0xF 5 1 3) 0x8F17 (·.reg 0xF) = some 0 := by decide +kernel
/-- A12, A13, A14 -/
theorem test_rightShift : sees (with1 1 1) 0x8106 (fun t => (t.reg 1, t.reg 0xF)) = some (0, 1) ∧
    sees (with1 1 0xFE) 0x8106 (fun t => (t.reg 1, t.reg 0xF)) = some (0x7F, 0) ∧
    sees (with2 1 4 2 0xFF) 0x8126 (fun t => (t.reg 1, t.reg 0xF)) = some (2, 0) := by
  decide +kernel
/-- A28 -/
theorem test_rightShift_alias : sees (aliasState .flagLast 0xF 3 1 0) 0x8F06 (·.reg 0xF) = some 1 ∧
    sees (aliasState .textOrder 0xF 3 1 0) 0x8F06 (·.reg 0xF) = some 0 := by decide +kernel
/-- A15, A16, A17 -/
theorem test_leftShift : sees (with1 1 0x80) 0x810E (fun t => (t.reg 1, t.reg 0xF)) = some (0, 1) ∧
    sees (with1 1 0x7F) 0x810E (fun t => (t.reg 1, t.reg 0xF)) = some (0xFE, 0) ∧
    sees (with2 1 0xC1 2 0) 0x812E (fun t => (t.reg 1, t.reg 0xF)) = some (0x82, 1) := by
  decide +kernel
/-- A29 -/
theorem test_leftShift_alias : sees (aliasState .flagLast 0xF 0x81 1 0) 0x8F0E (·.reg 0xF) = some 1 ∧
    sees (aliasState .textOrder 0xF 0x81 1 0) 0x8F0E (·.reg 0xF) = some 2 := by decide +kernel
/-- A26 under `draw`: the free byte, one choice taken. -/
theorem test_add_alias_draw : sees (with2 0xF 0xFF 1 1) 0x8F14 (fun t => t.choices) = some 2 := by
  decide +kernel
/-- A18 -/
theorem test_or : sees ((with2 0 0x0F 1 0xF0).setReg 0xF 0x77) 0x8011
    (fun t => (t.reg 0, t.reg 0xF)) = some (0xFF, 0x77) := by decide +kernel
/-- A19 -/
theorem test_and : sees (with2 0 0x3C 1 0x0F) 0x8012 (·.reg 0) = some 0x0C := by decide +kernel
/-- A20, A21 -/
theorem test_xor : sees (with1 0 0x5A) 0x8003 (·.reg 0) = some 0 ∧
    sees (with2 0 0xFF 1 0x0F) 0x8013 (·.reg 0) = some 0xF0 := by decide +kernel
/-- A22 -/
theorem test_setImmediate : sees State.reset 0x6F12 (fun t => (t.reg 0xF, t.pc)) = some (0x12, 0x202) := by
  decide +kernel
/-- A23, A24 -/
theorem test_addImmediate :
    sees (with2 0 0xFF 0xF 0x33) 0x7002 (fun t => (t.reg 0, t.reg 0xF)) = some (1, 0x33) ∧
    sees (with1 0xF 0xFF) 0x7F01 (·.reg 0xF) = some 0 := by decide +kernel
/-- A25 -/
theorem test_copy : sees (with1 7 0x42) 0x8270 (·.reg 2) = some 0x42 := by decide +kernel

/-! ### Index, font, BCD and block transfer -/

/-- M1 -/
theorem test_setIndexRegister : sees State.reset 0xA123 (·.I) = some 0x123 := by decide +kernel
/-- M3, M4 -/
theorem test_addToIndex :
    sees { with1 0 1 with I := 0x0FFF } 0xF01E (fun t => (t.I, t.reg 0xF)) = some (0x1000, 0) ∧
    sees { with1 0xF 0x10 with I := 0x200 } 0xFF1E (·.I) = some 0x210 := by decide +kernel
/-- M6, M7, M8 -/
theorem test_setIndexToFontCharacter : sees (with1 0 0x0A) 0xF029 (·.I) = some 0x082 ∧
    sees (with1 0 0x1B) 0xF029 (·.I) = some 0x087 ∧
    sees (with1 0 0xFF) 0xF029 (·.I) = some 0x09B := by decide +kernel
/-- M12 -/
theorem test_bcd : sees { with1 0 0xFF with I := 0x300 } 0xF033
    (fun t => (t.byte 0x300, t.byte 0x301, t.byte 0x302, t.I)) =
    some (2, 5, 5, 0x300) := by decide +kernel
/-- M13 -/
theorem test_bcd_wraps : sees { with1 0 0x7B with I := 0xFFE } 0xF033
    (fun t => (t.byte 0xFFE, t.byte 0xFFF, t.byte 0x000, t.I)) =
    some (1, 2, 3, 0xFFE) := by decide +kernel
/-- M14 -/
theorem test_dumpRegisters_policy :
    sees { (with2 0 1 1 2).setReg 2 3 with I := 0x400 } 0xF255
      (fun t => (t.byte 0x400, t.byte 0x401, t.byte 0x402, t.byte 0x403, t.I)) =
      some (1, 2, 3, 0, 0x400) ∧
    sees { (with2 0 1 1 2).setReg 2 3 with
           I := 0x400, policy := { Config.Policy.reference with loadStoreI := .xPlusOne } } 0xF255
      (·.I) = some 0x403 := by decide +kernel
/-- M15 -/
theorem test_dumpRegisters_one : sees { with2 0 0xAA 1 0xBB with I := 0x400 } 0xF055
    (fun t => (t.byte 0x400, t.byte 0x401)) = some (0xAA, 0) := by decide +kernel
/-- M17 -/
theorem test_loadRegisters :
    sees { with1 3 0x99 with I := 0x300, mem := Memory.load Config.Params.reference [] 0x300 [2, 5, 4] } 0xF265
      (fun t => (t.reg 0, t.reg 1, t.reg 2, t.reg 3)) = some (2, 5, 4, 0x99) := by decide +kernel
/-- M19 -/
theorem test_loadRegisters_wraps :
    sees { State.reset with I := 0xFFF, mem := [(0x000, 0x34), (0xFFF, 0x12)] } 0xF165
      (fun t => (t.reg 0, t.reg 1)) = some (0x12, 0x34) := by decide +kernel

/-! ### Random -/

/-- R2: any draw masked by 00 is 00; one choice is taken. -/
theorem test_random_mask : sees State.reset 0xC000 (fun t => t.choices) = some 2 := by decide +kernel

/-! ### Display -/

/-- D1 -/
theorem test_clear : sees (litCorner.setReg 0xF 5) 0x00E0
    (fun t => (litPixels t, t.reg 0xF, t.status, t.frame.isSome)) =
    some ([], 5, .ok true, true) := by decide +kernel
/-- D3: the glyph 0 across the corner. -/
theorem test_draw_wraps : sees { with2 1 62 2 1 with I := 0x050 } 0xD125
    (fun t => (litPixels t, t.reg 0xF, t.status)) =
    some ([(0, 1), (1, 1), (62, 1), (63, 1), (1, 2), (62, 2), (1, 3), (62, 3), (1, 4), (62, 4),
           (0, 5), (1, 5), (62, 5), (63, 5)], 0, .ok true) := by decide +kernel
/-- D7, D8: collision and a zero bit. -/
theorem test_draw_collision :
    sees { litCorner with I := 0x300, mem := [(0x300, 0x80)] } 0xD011
      (fun t => (litPixels t, t.reg 0xF)) = some ([], 1) ∧
    sees { litCorner with I := 0x300, mem := [(0x300, 0x40)] } 0xD011
      (fun t => (litPixels t, t.reg 0xF)) = some ([(0, 0), (1, 0)], 0) := by decide +kernel

/-! ### Keypad -/

/-- K1, K2, K3, K4 -/
theorem test_skipIfKeyPressed :
    sees { with1 4 7 with key := some 7 } 0xE49E (·.pc) = some 0x204 ∧
    sees { with1 4 7 with key := some 3 } 0xE49E (·.pc) = some 0x202 ∧
    sees (with1 4 7) 0xE49E (·.pc) = some 0x202 ∧
    sees { with1 4 0x25 with key := some 5 } 0xE49E (·.pc) = some 0x204 := by decide +kernel
/-- K5, K6, K7 -/
theorem test_skipIfKeyNotPressed :
    sees (with1 4 7) 0xE4A1 (·.pc) = some 0x204 ∧
    sees { with1 4 7 with key := some 7 } 0xE4A1 (·.pc) = some 0x202 ∧
    sees { with1 4 0xF3 with key := some 3 } 0xE4A1 (·.pc) = some 0x202 := by decide +kernel
/-- K8 -/
theorem test_awaitKeyInput_waits : sees (with1 3 0x44) 0xF30A
    (fun t => (t.pc, t.reg 3, t.status)) = some (0x200, 0x44, .waiting) := by decide +kernel
/-- K9 -/
theorem test_awaitKeyInput_key : sees { State.reset with key := some 0xC } 0xF30A
    (fun t => (t.pc, t.reg 3, t.status, t.key)) = some (0x202, 0x0C, .ok false, some 0xC) := by
  decide +kernel

/-! ### Timers and the tick -/

/-- T1 -/
theorem test_setVxToDelayTimer : sees { State.reset with DT := 0x3C } 0xF307
    (fun t => (t.reg 3, t.pc)) = some (0x3C, 0x202) := by decide +kernel
/-- T2, T10 -/
theorem test_setDelayTimer : sees (with1 0 7) 0xF015 (·.DT) = some 7 ∧
    sees { State.reset with DT := 0x20 } 0xF015 (·.DT) = some 0 := by decide +kernel
/-- T3 -/
theorem test_setSoundTimer : sees (with1 1 0x1E) 0xF118 (fun t => (t.ST, t.soundPort)) =
    some (0x1E, 0x1E) := by decide +kernel
/-- T5, T6 and L1-6 -/
theorem test_tick :
    after { State.reset with strobes := [.tick], DT := 1, ST := 1 } (fun t => (t.DT, t.ST)) =
      some (0, 0) ∧
    after { State.reset with strobes := [.tick], ST := 0xFF } (fun t => (t.DT, t.ST)) =
      some (0, 0xFE) := by decide +kernel
/-- T7 -/
theorem test_tick_halted :
    after { State.reset with strobes := [.tick], run := .halted .stackUnderflow, DT := 3 }
      (fun t => (t.DT, t.run)) = some (2, .halted .stackUnderflow) := by decide +kernel

/-! ### Errors, halted cycles and model faults -/

/-- X1 -/
theorem test_incompatibleProgram : sees (with1 0 0x11) 0x0123
    (fun t => (t.run, t.status.code, t.pc, t.reg 0, t.frame.isNone)) =
    some (.halted .incompatibleProgram, 1, 0x200, 0x11, true) := by decide +kernel
/-- X2 -/
theorem test_halted_cycle :
    after (cycling { State.reset with run := .halted .incompatibleProgram }) (fun t => (t.run, t.status, t.pc)) =
    some (.halted .incompatibleProgram, .error .incompatibleProgram, 0x200) := by decide +kernel
/-- X3 -/
theorem test_malformedInstruction : sees State.reset 0xE0FF
    (fun t => (t.run, t.status.code, t.status.info, t.pc)) =
    some (.halted (.malformedInstruction 0xE0FF), 2, some 0xE0FF, 0x200) := by decide +kernel
/-- X5 -/
theorem test_address_fault : faults { addrFault with I := 0xFFF } 0xD012 =
    some (.addressOutOfRange 0x1000) := by decide +kernel
/-- X6 -/
theorem test_odd_pc_fault : faults { oddFault with pc := 0x201 } 0x8008 =
    some (.misalignedFetch 0x201) := by decide +kernel

/-! ### Reset -/

/-- A halted machine whose next strobe is a reset with the image 12 00. -/
def resetNext : State :=
  { State.reset with strobes := [.reset [0x12, 0x00]], run := .halted .stackOverflow,
                     stack := List.replicate 16 0x202, pc := 0x300, key := some 4 }
/-- S1 and S4 -/
theorem test_reset : after resetNext (fun t => (t.run, t.pc, t.stack, t.key)) =
    some (.running, 0x200, [], none) := by decide +kernel
/-- S1: memory. -/
theorem test_reset_memory :
    after resetNext (fun t => [0x050, 0x09F, 0x0A0, 0x200, 0x201].map t.byte) =
    some [0xF0, 0x80, 0x00, 0x12, 0x00] := by decide +kernel
/-- S3, for an image of 3585 bytes. -/
theorem test_reset_oversize :
    after { State.reset with strobes := [.reset (List.replicate 3585 0x12)] }
      (fun t => (t.run, t.status.code, t.byte 0x200, t.byte 0x050, t.pc)) =
    some (.halted .loadTooLarge, 5, 0x00, 0xF0, 0x200) := by decide +kernel
/-- S6: the first cycle after State.reset fetches 0000. -/
theorem test_first_cycle : after (cycling State.reset) (fun t => (t.run, t.pc)) =
    some (.halted .incompatibleProgram, 0x200) := by decide +kernel
/-- R7, R290, R77: a reset under other parameters (the longest image for base 0xF00). -/
theorem test_reset_params :
    after { small with strobes := [.reset (List.replicate 0x100 0x12)] }
      (fun t => (t.run, t.pc, t.params == smallParams, t.disp == Display.dark 4 2,
        [0x00F, 0x010, 0x01F, 0x020, 0xEFF, 0xF00, 0xFFF].map t.byte)) =
    some (.running, 0xF00, true, true, [0x00, 0xAA, 0xAA, 0x00, 0x00, 0x12, 0x12]) := by
  decide +kernel
/-- R292 under other parameters: one byte more. -/
theorem test_reset_oversize_params :
    after { small with strobes := [.reset (List.replicate 0x101 0x12)] }
      (fun t => (t.run, t.byte 0x010, t.byte 0xF00)) = some (.halted .loadTooLarge, 0xAA, 0x00) := by
  decide +kernel
/-- R142 with STACK_DEPTH = 1. -/
theorem test_call_overflow_params :
    sees { small with stack := [0xF02] } 0x2300 (·.run) = some (.halted .stackOverflow) ∧
    sees small 0x2300 (fun t => (t.run, t.stack)) = some (.running, [0xF02]) := by decide +kernel
/-- R193 with another font place and glyph size. -/
theorem test_glyph_params : sees (small.setReg 0 0x1B) 0xF029 (·.I) = some 0x01B := by decide +kernel
/-- R219 to R221 on a display 4 wide: bits 0 and 4 fall on one pixel, which is lit and put out again. -/
theorem test_draw_params :
    sees { small with I := 0x400, mem := [(0x400, 0x88)] } 0xD011 (fun t => (litPixels t, t.reg 0xF)) =
      some ([], 1) ∧
    sees { small with I := 0x400, mem := [(0x400, 0x84)] } 0xD011 (fun t => (litPixels t, t.reg 0xF)) =
      some ([(0, 0), (1, 0)], 0) := by decide +kernel
/-- R120: a settled strobe is taken first; with none settled the strobe is a free choice, and one is taken. -/
theorem test_takeStrobe :
    (cycling State.reset).takeStrobe.1 = .cycle ∧ (cycling State.reset).takeStrobe.2.strobes = [] ∧
    State.reset.takeStrobe.1 = Config.strobe 1 ∧ State.reset.takeStrobe.2.choices = 2 :=
  ⟨rfl, rfl, rfl, rfl⟩
/-- R42: a key strobe sets the latch. -/
theorem test_keyIn : after { State.reset with strobes := [.keyIn (some 4), .tick] }
    (fun t => (t.key, t.strobes)) = some (some 4, [.tick]) := by decide +kernel

/-! ### Witnesses: the hypotheses of each obligation, and of each of its clauses, are met -/

/-- Reset with the word at 0x200 and a cycle next. -/
def placed (w : Nat) : State := State.reset.withFetchWord 16 w

/-- The word at the odd `pc` 0x201 under ODD_PC_POLICY = fault. -/
def oddPlaced (w : Nat) : State := ({ oddFault with pc := 0x201 } : State).withFetchWord 16 w

/-- Reset with `I` set. -/
def atI (i : Word) : State := { State.reset with I := i }

/-- Reset under ADDR_POLICY = fault with `I` set. -/
def faultAtI (i : Word) : State := { addrFault with I := i }

/-- A halted state. -/
def halted : State :=
  { State.reset with run := .halted .stackUnderflow, status := .error .stackUnderflow
                     strobes := [.cycle] }

/-- A state with a full stack, a listed byte and a published frame. -/
def busy : State :=
  { litCorner with mem := [(0x200, 0x6F), (0x201, 0x12)], stack := List.replicate 16 0x202,
                   frame := some litCorner.disp, status := .ok true, strobes := [.cycle] }

theorem witness_DecodeOfEncode :
    wellFormed (.draw 1 2 5) = true ∧ wellFormed (.skipIfVxEqualsVy 1 2) = true ∧
    wellFormed (.incompatibleProgram 0x0EF) = true := by decide

theorem witness_DecodedWordEncodesBack :
    decode .ignore 0x5121 = .ok (.skipIfVxEqualsVy 1 2) ∧
    decode .malformed 0x9120 = .ok (.skipIfVxNotEqualsVy 1 2) ∧
    decode .ignore 0xD125 = .ok (.draw 1 2 5) := ⟨rfl, rfl, rfl⟩

theorem witness_StepRunsDecodedInstruction :
    (placed 0x6F12).run = .running ∧ (placed 0x6F12).cycleNext ∧ (placed 0x6F12).fetchable ∧
    decode .ignore (placed 0x6F12).wordAtPc = .ok (.setImmediate 0xF 0x12) :=
  ⟨rfl, rfl, ⟨.inl rfl, .inl rfl⟩, by rfl⟩

/-- With a listed cycle, at the last word of memory, under both `fault` settings. -/
theorem witness_StepRunsDecodedInstruction_last :
    ∃ s : State, s.run = .running ∧ s.cycleNext ∧ s.fetchable ∧ s.policy.addr = .fault ∧
      s.policy.oddPc = .fault ∧ decode s.policy.lowNibble s.wordAtPc = .ok (.setImmediate 0 0) :=
  ⟨{ State.reset with
      pc := 0xFFE, mem := [(0xFFE, 0x60)], strobes := [.cycle, .tick]
      policy := { Config.Policy.reference with addr := .fault, oddPc := .fault } },
    rfl, rfl, ⟨.inr rfl, .inr (by decide)⟩, rfl, rfl, by rfl⟩

theorem witness_PlacedInstructionRuns : wellFormed (.call 0x300) = true ∧ State.reset.fetchable ∧
    wellFormed (.incompatibleProgram 0x0EF) = true :=
  ⟨by decide, ⟨.inl rfl, .inl rfl⟩, by decide⟩

/-- Its three clauses, at odd `pc`, at 0x1000 and at 0xFFF. -/
theorem witness_FetchStopsByPolicy :
    (∃ s : State, s.run = .running ∧ s.cycleNext ∧ s.policy.oddPc = .fault ∧ s.pc.toNat % 2 = 1) ∧
    (∃ s : State, s.run = .running ∧ s.cycleNext ∧ (s.policy.oddPc = .fetch ∨ s.pc.toNat % 2 = 0) ∧
      s.policy.addr = .fault ∧ s.pc.toNat = 4096) ∧
    (∃ s : State, s.run = .running ∧ s.cycleNext ∧ s.policy.oddPc = .fetch ∧
      s.policy.addr = .fault ∧ s.pc.toNat = 4095) :=
  ⟨⟨cycling { oddFault with pc := 0x201 }, rfl, rfl, rfl, rfl⟩,
   ⟨cycling { addrFault with pc := 0x1000 }, rfl, rfl, .inl rfl, rfl, rfl⟩,
   ⟨cycling { addrFault with pc := 0xFFF }, rfl, rfl, rfl, rfl, rfl⟩⟩

theorem witness_MalformedWordHalts :
    (placed 0x800F).run = .running ∧ (placed 0x800F).cycleNext ∧ (placed 0x800F).fetchable ∧
    decode .ignore (placed 0x800F).wordAtPc = .error (.malformedInstruction 0x800F) :=
  ⟨rfl, rfl, ⟨.inl rfl, .inl rfl⟩, by rfl⟩

theorem witness_HaltedCycleReportsAgain : halted.run = .halted .stackUnderflow ∧ halted.cycleNext :=
  ⟨rfl, rfl⟩

theorem witness_TickDecrementsTimers :
    ({ halted with strobes := [.tick, .cycle] } : State).takeStrobe.1 = .tick := rfl

theorem witness_KeyStrobeSetsLatch :
    ({ halted with strobes := [.keyIn none] } : State).takeStrobe.1 = .keyIn none := rfl

/-- The empty image and the longest. -/
theorem witness_ResetSetsWholeState :
    (∃ s : State, s.takeStrobe.1 = .reset [] ∧
      ([] : List Byte).length ≤ 4096 - s.params.programBase) ∧
    (∃ (s : State) (image : List Byte), s.takeStrobe.1 = .reset image ∧
      image.length = 4096 - s.params.programBase) :=
  ⟨⟨{ halted with strobes := [.reset []] }, rfl, by decide⟩,
   ⟨{ halted with strobes := [.reset (List.replicate 3584 0xAB)] }, _, rfl, List.length_replicate⟩⟩

theorem witness_OversizeImageHalts :
    ∃ (s : State) (image : List Byte), s.takeStrobe.1 = .reset image ∧
      image.length = 4096 - s.params.programBase + 1 :=
  ⟨{ halted with strobes := [.reset (List.replicate 3585 0xAB)] }, _, rfl, List.length_replicate⟩

theorem witness_StepKeepsInvariant : busy.Inv ∧ ∃ t, step busy = .next t :=
  ⟨⟨by decide, by decide, by decide, by decide, fun _ h => by cases h; exact ⟨rfl, rfl⟩,
    fun _ h => by cases h⟩, _, rfl⟩

theorem witness_StepKeepsInvariant_halted : halted.Inv ∧ ∃ t, step halted = .next t :=
  ⟨⟨by decide, by decide, by decide, by decide, fun _ h => (nomatch h),
    fun _ h => by cases h; rfl⟩, _, rfl⟩

theorem witness_OnlyResetLeavesHalted : halted.run = .halted .stackUnderflow ∧
    (∃ t, step halted = .next t) ∧ ∀ image, halted.takeStrobe.1 ≠ .reset image :=
  ⟨rfl, ⟨_, rfl⟩, fun _ h => by cases h⟩

theorem witness_EveryStepCompletesByDefault :
    State.reset.policy.addr = .mask ∧ State.reset.policy.oddPc = .fetch := ⟨rfl, rfl⟩

theorem witness_StepKeepsPolicy : ∃ t, step halted = .next t := ⟨_, rfl⟩

/-- A full stack under Call, an empty one under Return. -/
theorem witness_ErrorsArePrecise :
    (busy.run = .running ∧ ∃ t, exec (.call 0x300) busy = .next t ∧ t.run ≠ .running) ∧
    (State.reset.run = .running ∧ ∃ t, exec .ret State.reset = .next t ∧ t.run ≠ .running) :=
  ⟨⟨rfl, _, rfl, by decide⟩, ⟨rfl, _, rfl, by decide⟩⟩

theorem witness_OnlyClearAndDrawRedraw :
    (redraws .clear ∧ ∃ t, exec .clear State.reset = .next t) ∧
    (redraws (.draw 1 2 1) ∧ ∃ t, exec (.draw 1 2 1) State.reset = .next t) ∧
    (¬ redraws (.copy 1 2) ∧ ∃ t, exec (.copy 1 2) State.reset = .next t) :=
  ⟨⟨trivial, _, rfl⟩, ⟨trivial, _, rfl⟩, ⟨id, _, rfl⟩⟩

theorem witness_OnlyCallAndReturnChangeStack :
    (∃ t, exec (.copy 1 2) busy = .next t) ∧
    (∃ t, exec (.call 0x300) State.reset = .next t ∧ t.stack ≠ State.reset.stack) ∧
    (∃ t, exec .ret busy = .next t ∧ t.stack ≠ busy.stack) :=
  ⟨⟨_, rfl⟩, ⟨_, rfl, by decide⟩, ⟨_, rfl, by decide⟩⟩

theorem witness_OnlyStoresChangeMemory : (∃ t, exec (.loadRegisters 2) busy = .next t) ∧
    ∀ x, Instr.loadRegisters 2 ≠ .setIndexToBinaryCodedVx x ∧
      Instr.loadRegisters 2 ≠ .dumpRegisters x :=
  ⟨⟨_, rfl⟩, fun _ => ⟨nofun, nofun⟩⟩

/-- A writer of `DT`, one of `ST`, and `I` written by ANNN and by FX55 under x_plus_1. -/
theorem witness_WritersOfIndexTimersAndLatch :
    (∃ t, exec (.setDelayTimer 1) (with1 1 7) = .next t ∧ t.DT ≠ (with1 1 7).DT) ∧
    (∃ t, exec (.setSoundTimer 1) (with1 1 7) = .next t ∧ t.ST ≠ (with1 1 7).ST) ∧
    (∃ t, exec (.setIndexRegister 0xFFF) State.reset = .next t ∧ t.I ≠ State.reset.I) ∧
    (∃ (s t : State), s.policy.loadStoreI = .xPlusOne ∧ exec (.dumpRegisters 0) s = .next t ∧
      t.I ≠ s.I) :=
  ⟨⟨_, rfl, by decide⟩, ⟨_, rfl, by decide⟩, ⟨_, rfl, by decide⟩,
   ⟨{ State.reset with policy := { Config.Policy.reference with loadStoreI := .xPlusOne } }, _,
     rfl, rfl, by decide⟩⟩

theorem witness_WritersOfGeneralRegisters :
    (∃ t, exec (.loadRegisters 2) State.reset = .next t) ∧ ¬ writesReg (.loadRegisters 2) 3 ∧
    (∃ t, exec (.add 1 2) State.reset = .next t) ∧ ¬ writesReg (.add 1 2) 2 :=
  ⟨⟨_, rfl⟩, by simp [writesReg], ⟨_, rfl⟩, by simp [writesReg]⟩

theorem witness_NoInstructionReadsSoundTimer :
    (∃ t, exec (.setVxToDelayTimer 1) State.reset = .next t) ∧
    (∃ f, exec (.dumpRegisters 0) (faultAtI 0x1000) = .fault f) := ⟨⟨_, rfl⟩, ⟨_, rfl⟩⟩

theorem witness_AddressesModuloMemSize :
    ∃ s t : State, SameModuloMemSize s t ∧ s.policy.addr = .mask ∧ s.policy.oddPc = .fetch ∧
      s.pc ≠ t.pc ∧ s.I ≠ t.I ∧ s.stack ≠ t.stack :=
  ⟨{ State.reset with pc := 0x1200, I := 0x2FFF, stack := [0xF202] },
   { State.reset with pc := 0x0200, I := 0x0FFF, stack := [0x0202] },
   ⟨rfl, rfl, .cons rfl .nil, rfl⟩, rfl, rfl, by decide, by decide, by decide⟩

theorem witness_EndedStateStaysEnded : (placed 0x1200).ended ∧ (placed 0x1200).cycleNext ∧
    (placed 0x1200).policy.oddPc = .fetch :=
  ⟨⟨rfl, 0x200, ⟨0x1200, rfl, rfl⟩, rfl⟩, rfl, rfl⟩

/-- The second clause: a jump to itself at an odd `pc` under ODD_PC_POLICY = fault. -/
theorem witness_EndedStateStaysEnded_odd :
    (oddPlaced 0x1201).ended ∧ (oddPlaced 0x1201).cycleNext ∧
      (oddPlaced 0x1201).policy.oddPc = .fault ∧ (oddPlaced 0x1201).pc.toNat % 2 = 1 :=
  ⟨⟨rfl, 0x201, ⟨0x1201, rfl, rfl⟩, rfl⟩, rfl, rfl, rfl⟩

/-- A waiting state (R284) at an odd `pc` under the same policy. -/
theorem test_waiting_odd : (oddPlaced 0xF30A).waiting :=
  ⟨rfl, 3, 0xF30A, rfl, rfl⟩

theorem witness_TimersAfterTicks :
    ({ State.reset with DT := 2, ST := 9, strobes := [.tick, .tick, .tick, .cycle] } : State).strobes =
      List.replicate 3 .tick ++ [.cycle] := rfl

/-- Under `mask` above the last address, and the last address under `fault`. -/
theorem witness_MemoryReadAfterWrite :
    State.reset.addressable 0x1FFF 1 ∧ addrFault.addressable 0xFFF 1 ∧ addrFault.addressable 0 1 :=
  ⟨.inl rfl, .inr (by decide), .inr (by decide)⟩

/-- The stored word: by FX55 as its last two bytes, by FX33 as its first two and as its last two. -/
theorem witness_StoredWordIsFetchedNext :
    (∃ t, (atI 0x201).policy.addr = .mask ∧ (atI 0x201).policy.oddPc = .fetch ∧
      exec (.dumpRegisters 2) (atI 0x201) = .next t ∧ (0x201 + 1) % 4096 = (0x200 + 2) % 4096) ∧
    (∃ t, exec (.setIndexToBinaryCodedVx 0) (atI 0x202) = .next t ∧
      (atI 0x202).I.toNat % 4096 = ((atI 0x202).pc.toNat + 2) % 4096) ∧
    (∃ t, exec (.setIndexToBinaryCodedVx 0) (atI 0x201) = .next t ∧
      ((atI 0x201).I.toNat + 1) % 4096 = ((atI 0x201).pc.toNat + 2) % 4096) :=
  ⟨⟨_, rfl, rfl, rfl, rfl⟩, ⟨_, rfl, rfl⟩, ⟨_, rfl, rfl⟩⟩

theorem witness_CallPushesOrOverflows :
    ({ State.reset with stack := List.replicate 15 0x202 } : State).stack.length <
      State.reset.params.stackDepth ∧
    busy.stack.length = busy.params.stackDepth := by decide

theorem witness_ReturnPopsOrUnderflows :
    ({ State.reset with stack := [0x202, 0x30A] } : State).stack = [0x202] ++ [0x30A] ∧
    State.reset.stack = [] := ⟨rfl, rfl⟩

theorem witness_ReturnUndoesCall : State.reset.run = .running ∧
    ∃ t, exec (.call 0x300) State.reset = .next t ∧ t.run = .running ∧
      ({ busy with stack := t.stack } : State).stack = t.stack :=
  ⟨rfl, _, rfl, rfl, rfl⟩

theorem witness_SubtractUndoesAdd : (1 : RegIdx) ≠ 0xF ∧ (2 : RegIdx) ≠ 0xF ∧ (2 : RegIdx) ≠ 1 ∧
    ∃ t u, exec (.add 1 2) (with2 1 0xFF 2 1) = .next t ∧ exec (.subtract 1 2) t = .next u :=
  ⟨by decide, by decide, by decide, _, _, rfl, rfl⟩

/-- The three block transfers and Draw: any address under `mask`; up to the last byte under `fault`; Draw
of no rows at 0x1000. -/
theorem witness_addressable :
    (atI 0xFFFF).addressable (atI 0xFFFF).I.toNat 16 ∧
    (faultAtI 0xFFD).addressable (faultAtI 0xFFD).I.toNat 3 ∧
    (faultAtI 0xFF0).addressable (faultAtI 0xFF0).I.toNat ((0xF : RegIdx).toNat + 1) ∧
    (faultAtI 0xFF1).addressable (faultAtI 0xFF1).I.toNat (0xF : BitVec 4).toNat ∧
    (faultAtI 0x1000).addressable (faultAtI 0x1000).I.toNat (0 : BitVec 4).toNat :=
  ⟨.inl rfl, .inr (by decide), .inr (by decide), .inr (by decide), .inr (by decide)⟩

/-- Both settings of LOADSTORE_I, for DumpRegistersStoresBlock and LoadRegistersLoadsBlock. -/
theorem witness_loadStoreI : State.reset.policy.loadStoreI = .unchanged ∧
    ∃ s : State, s.policy.loadStoreI = .xPlusOne ∧ s.addressable s.I.toNat 16 :=
  ⟨rfl, { State.reset with policy := { Config.Policy.reference with loadStoreI := .xPlusOne } },
    rfl, .inl rfl⟩

/-- One byte too far, for each of its three clauses. -/
theorem witness_DataAddressStopsByPolicy :
    ((faultAtI 0xFFE).policy.addr = .fault ∧ 4096 < (faultAtI 0xFFE).I.toNat + 3) ∧
    4096 < (faultAtI 0xFFF).I.toNat + (1 : RegIdx).toNat + 1 ∧
    (1 ≤ (1 : BitVec 4).toNat ∧ 4096 < (faultAtI 0x1000).I.toNat + (1 : BitVec 4).toNat) := by
  decide

/-- A sprite with a set bit over a lit pixel, a set bit over an unlit one, and one with no set bit. -/
theorem witness_DrawXorsSprite :
    (∃ s : State, s.spriteCovers 1 2 1 0 0 ∧ s.disp.pixel 0 0 = true) ∧
    (∃ s : State, s.spriteCovers 1 2 1 0 0 ∧ s.disp.pixel 0 0 = false) ∧
    (∃ s : State, ∀ px py, ¬ s.spriteCovers 1 2 0 px py) :=
  ⟨⟨{ litCorner with mem := [(0, 0x80)] }, ⟨0, by decide, 0, by decide, rfl, rfl, rfl⟩, by decide⟩,
   ⟨{ State.reset with mem := [(0, 0x80)] }, ⟨0, by decide, 0, by decide, rfl, rfl, rfl⟩, by decide⟩,
   ⟨State.reset, fun _ _ ⟨_, h, _⟩ => absurd h (by omega)⟩⟩

/-- The shape and size it asks for, up to 15 rows; a lit pixel that is met; a pixel met twice; none met. -/
theorem witness_DrawXorsSprite_collision :
    State.reset.dispOk ∧ State.reset.spriteFits 15 ∧ small.dispOk ∧
    ({ litCorner with mem := [(0, 0x80)] } : State).spriteCollides 1 2 1 0 0 ∧
    ({ small with mem := [(0, 0x88)] } : State).spriteCollides 1 2 1 0 0 ∧
    ¬ ∃ px py, State.reset.spriteCollides 1 2 0 px py :=
  ⟨⟨by decide, by decide⟩, ⟨by decide, by decide⟩, ⟨by decide, by decide⟩, .inl (by decide), .inr (by decide),
   by rintro ⟨px, py, ⟨h, -⟩ | h⟩ <;> simp [State.spriteHits] at h⟩

theorem witness_DrawTwiceRestores : (1 : RegIdx) ≠ 0xF ∧ (2 : RegIdx) ≠ 0xF ∧
    ∃ t u, exec (.draw 1 2 1) (atI 0x050) = .next t ∧ exec (.draw 1 2 1) t = .next u :=
  ⟨by decide, by decide, _, _, rfl, rfl⟩

theorem witness_FrameBytesRowMajor : busy.frame = some litCorner.disp ∧
    litCorner.disp.shaped busy.params.displayW busy.params.displayH = true := ⟨rfl, by decide⟩

/-- The last pixel of the display. -/
theorem witness_InvertFlipsOnePixel : (Display.dark 64 32).shaped 64 32 = true ∧ 63 < 64 ∧ 31 < 32 := by
  decide

theorem witness_IndexInstructions : State.reset.params.wf = true := by decide

theorem witness_KeySkips : ({ with1 4 0x25 with key := some 5 } : State).holdsKey 4 ∧
    ¬ ({ with1 4 0x25 with key := some 6 } : State).holdsKey 4 ∧ ¬ (with1 4 0x25).holdsKey 4 := by
  refine ⟨⟨5, rfl, by decide⟩, ?_, ?_⟩
  · rintro ⟨k, hk, h⟩; cases hk; revert h; decide
  · rintro ⟨k, hk, -⟩; cases hk

theorem witness_AwaitKeyInputWaits :
    State.reset.key = none ∧ ({ State.reset with key := some 0xF } : State).key = some 0xF := ⟨rfl, rfl⟩

end Sys2Proof.Tests
end

/-! PROOFS. What an executed instruction can leave, said once, and from it the invariant, the fixed
configuration and the writers of `I`, the timers and the latch (spec/10_state.md). -/

namespace Sys2Proof.Machine

/-! ### What an instruction can leave -/

/-- The states in which `i`, executed from `s`, can end its cycle, by what it writes. -/
inductive Effect (s : State) (i : Instr) : State → Prop
  | registers (V : Vector Byte 16) (n : Nat) (hi : ¬ redraws i) :
      Effect s i { s.advance with V := V, choices := n }
  | goTo (pc : Word) (hi : ¬ redraws i) : Effect s i { s.advance with pc := pc }
  | push (nnn : Addr) (hi : i = .call nnn) (room : s.stack.length < s.params.stackDepth) :
      Effect s i { s.advance with pc := zextAddr nnn, stack := s.stack ++ [s.pc + 2] }
  | pop (l : List Word) (v : Word) (hi : i = .ret) (hs : s.stack = l ++ [v]) :
      Effect s i { s.advance with pc := v, stack := l }
  | index (v : Word)
      (hi : (∃ nnn, i = .setIndexRegister nnn) ∨
        ∃ x, i = .addToIndex x ∨ i = .setIndexToFontCharacter x) :
      Effect s i { s.advance with I := v }
  | delay (x : RegIdx) (hi : i = .setDelayTimer x) : Effect s i { s.advance with DT := s.reg x }
  | sound (x : RegIdx) (hi : i = .setSoundTimer x) : Effect s i { s.advance with ST := s.reg x }
  | store (x : RegIdx) (bs : List Byte) (I : Word)
      (hi : i = .setIndexToBinaryCodedVx x ∨ i = .dumpRegisters x)
      (hI : I ≠ s.I → s.policy.loadStoreI = .xPlusOne ∧ i = .dumpRegisters x) :
      Effect s i { s.advance with mem := s.mem.writeBytes s.params s.I.toNat bs, I := I }
  | load (x : RegIdx) (V : Vector Byte 16) (I : Word) (hi : i = .loadRegisters x)
      (hI : I ≠ s.I → s.policy.loadStoreI = .xPlusOne) :
      Effect s i { s.advance with V := V, I := I }
  | clear (hi : i = .clear) :
      Effect s i
        { s.advance with disp := Display.dark s.params.displayW s.params.displayH }.publish
  | draw (x y : RegIdx) (n : BitVec 4) (V : Vector Byte 16) (d : Display) (hi : i = .draw x y n)
      (hd : d.map List.length = s.disp.map List.length) :
      Effect s i { s.advance with V := V, disp := d }.publish
  | stall (x : RegIdx) (hi : i = .awaitKeyInput x) : Effect s i s.stall
  | raise (e : Error) (hi : ¬ redraws i)
      (he : e = .incompatibleProgram ∨ e = .stackOverflow ∨ e = .stackUnderflow) :
      Effect s i (s.raise e)

variable {s t : State} {i : Instr}

/-- A result that is a state with the effect, for a cycle that cannot stop. -/
theorem Effect.of_next {u : State} (hu : Effect s i u) (h : (.next u : Result) = .next t) :
    Effect s i t := by
  injection h with h; exact h ▸ hu

theorem Effect.setResultFlag (hi : ¬ redraws i) (x : RegIdx) (r f al : Byte) :
    Effect s i (s.advance.setResultFlag x r f al) := by
  obtain ⟨V, n, he⟩ := s.advance.setResultFlag_eq x r f al
  rw [he]
  exact .registers V n hi

theorem Effect.skipIf (hi : ¬ redraws i) (c : Bool) : Effect s i (s.advance.skipIf c) := by
  rw [State.skipIf_eq]
  exact .goTo _ hi

/-- A cycle whose data accesses complete is their state. -/
theorem ofAccess_next {r : Except Fault State} (h : ofAccess r = .next t) : r = .ok t := by
  cases r with
  | ok u => injection h with h; rw [h]
  | error f => cases h

/-- A cycle in a state with room on the stack pushes, else it overflows. -/
theorem execCall_effect {nnn : Addr} (h : execCall nnn s = .next t) : Effect s (.call nnn) t := by
  unfold execCall at h
  rcases s.advance.push_cases s.advance.pc with ⟨-, hp⟩ | ⟨room, hp⟩ <;> rw [hp] at h
  · exact .of_next (.raise .stackOverflow id (.inr (.inl rfl))) h
  · exact .of_next (.push nnn rfl room) h

theorem execReturn_effect (h : execReturn s = .next t) : Effect s .ret t := by
  unfold execReturn at h
  rcases s.advance.pop_cases with ⟨-, hp⟩ | ⟨l, v, hs, hp⟩ <;> rw [hp] at h
  · exact .of_next (.raise .stackUnderflow id (.inr (.inr rfl))) h
  · exact .of_next (.pop l v rfl hs) h

theorem execDraw_effect {x y : RegIdx} {n : BitVec 4} (h : execDraw x y n s = .next t) :
    Effect s (.draw x y n) t := by
  unfold execDraw at h
  have h := ofAccess_next h
  split at h
  · cases h
  · injection h with h
    rw [← h]
    refine .draw x y n _ _ rfl ?_
    rw [drawRows_eq]
    exact foldl_invertStep_map_length ..

theorem execAwaitKeyInput_effect {x : RegIdx} (h : execAwaitKeyInput x s = .next t) :
    Effect s (.awaitKeyInput x) t := by
  unfold execAwaitKeyInput at h
  split at h
  · exact .of_next (.stall x rfl) h
  · exact .of_next (.registers _ _ id) h

theorem execSetIndexToBinaryCodedVx_effect {x : RegIdx}
    (h : execSetIndexToBinaryCodedVx x s = .next t) : Effect s (.setIndexToBinaryCodedVx x) t := by
  rw [State.writeBlock_ok (ofAccess_next h)]
  exact .store x _ s.I (.inl rfl) (absurd rfl)

/-- The index step moves `I` under one setting of LOADSTORE_I alone. -/
theorem State.stepIndex_I_ne {x : RegIdx} (h : (s.stepIndex x).I ≠ s.I) :
    s.policy.loadStoreI = .xPlusOne := by
  cases hp : s.policy.loadStoreI with
  | unchanged => exact absurd (by rw [State.stepIndex_eq, hp]) h
  | xPlusOne => rfl

theorem State.stepIndex_only_I (s : State) (x : RegIdx) :
    s.stepIndex x = { s with I := (s.stepIndex x).I } := by
  rw [State.stepIndex_eq]

theorem execDumpRegisters_effect {x : RegIdx} (h : execDumpRegisters x s = .next t) :
    Effect s (.dumpRegisters x) t := by
  unfold execDumpRegisters at h
  have h := ofAccess_next h
  split at h
  · cases h
  · next u hu =>
    injection h with h
    have hI := State.stepIndex_I_ne (s := u) (x := x)
    rw [← h, State.stepIndex_only_I]
    rw [State.writeBlock_ok hu] at hI ⊢
    exact .store x _ _ (.inr rfl) fun hne => ⟨hI hne, rfl⟩

theorem execLoadRegisters_effect {x : RegIdx} (h : execLoadRegisters x s = .next t) :
    Effect s (.loadRegisters x) t := by
  unfold execLoadRegisters at h
  have h := ofAccess_next h
  split at h
  · cases h
  · next bs _ =>
    injection h with h
    rw [← h, State.stepIndex_only_I, State.setRegBlock_eq]
    exact .load x _ _ rfl State.stepIndex_I_ne

/-- Whatever an instruction answers as a next state is one of the effects. -/
theorem exec_effect (h : exec i s = .next t) : Effect s i t := by
  cases i with
  | clear => exact .of_next (.clear rfl) h
  | ret => exact execReturn_effect h
  | incompatibleProgram nnn => exact .of_next (.raise .incompatibleProgram id (.inl rfl)) h
  | jump nnn => exact .of_next (.goTo (zextAddr nnn) id) h
  | call nnn => exact execCall_effect h
  | skipIfVxEqualsNn x nn => exact .of_next (.skipIf id _) h
  | skipIfVxNotEqualsNn x nn => exact .of_next (.skipIf id _) h
  | skipIfVxEqualsVy x y => exact .of_next (.skipIf id _) h
  | setImmediate x nn => exact .of_next (.registers _ _ id) h
  | addImmediate x nn => exact .of_next (.registers _ _ id) h
  | copy x y => exact .of_next (.registers _ _ id) h
  | or x y => exact .of_next (.registers _ _ id) h
  | and x y => exact .of_next (.registers _ _ id) h
  | xor x y => exact .of_next (.registers _ _ id) h
  | add x y => exact .of_next (.setResultFlag id _ _ _ _) h
  | subtract x y => exact .of_next (.setResultFlag id _ _ _ _) h
  | rightShift x y => exact .of_next (.setResultFlag id _ _ _ _) h
  | setVxToVyMinusVx x y => exact .of_next (.setResultFlag id _ _ _ _) h
  | leftShift x y => exact .of_next (.setResultFlag id _ _ _ _) h
  | skipIfVxNotEqualsVy x y => exact .of_next (.skipIf id _) h
  | setIndexRegister nnn => exact .of_next (.index _ (.inl ⟨nnn, rfl⟩)) h
  | jumpWithPcOffset nnn => exact .of_next (.goTo _ id) h
  | random x nn => exact .of_next (.registers _ _ id) h
  | draw x y n => exact execDraw_effect h
  | skipIfKeyPressed x => exact .of_next (.skipIf id _) h
  | skipIfKeyNotPressed x => exact .of_next (.skipIf id _) h
  | setVxToDelayTimer x => exact .of_next (.registers _ _ id) h
  | awaitKeyInput x => exact execAwaitKeyInput_effect h
  | setDelayTimer x => exact .of_next (.delay x rfl) h
  | setSoundTimer x => exact .of_next (.sound x rfl) h
  | addToIndex x => exact .of_next (.index _ (.inr ⟨x, .inl rfl⟩)) h
  | setIndexToFontCharacter x => exact .of_next (.index _ (.inr ⟨x, .inr rfl⟩)) h
  | setIndexToBinaryCodedVx x => exact execSetIndexToBinaryCodedVx_effect h
  | dumpRegisters x => exact execDumpRegisters_effect h
  | loadRegisters x => exact execLoadRegisters_effect h

/-! ### The invariant -/

/-- Taking the next strobe touches no field the invariant speaks of. -/
theorem State.Inv.takeStrobe (h : s.Inv) : s.takeStrobe.2.Inv := by
  obtain ⟨l, n, he⟩ := s.takeStrobe_eq
  rw [he]
  exact ⟨h.params_wf, h.mem_wf, h.stack_bounded, h.disp_shaped, h.frame_current, h.halt_reported⟩

theorem State.Inv.tick (h : s.Inv) : s.tick.Inv :=
  ⟨h.params_wf, h.mem_wf, h.stack_bounded, h.disp_shaped, h.frame_current, h.halt_reported⟩

theorem State.Inv.keyIn (h : s.Inv) (k : Option Key) : (s.keyIn k).Inv :=
  ⟨h.params_wf, h.mem_wf, h.stack_bounded, h.disp_shaped, h.frame_current, h.halt_reported⟩

theorem State.Inv.raise (h : s.Inv) (e : Error) : (s.raise e).Inv :=
  ⟨h.params_wf, h.mem_wf, h.stack_bounded, h.disp_shaped, nofun,
    fun _ he => congrArg Status.error (RunState.halted.inj he)⟩

theorem State.Inv.reportHalt {e : Error} (h : s.Inv) (hr : s.run = .halted e) :
    (s.reportHalt e).Inv :=
  ⟨h.params_wf, h.mem_wf, h.stack_bounded, h.disp_shaped, nofun,
    fun _ he => congrArg Status.error (RunState.halted.inj (hr.symm.trans he))⟩

/-- A reset meets the invariant whatever the state before it, as far as its parameters do. -/
theorem State.Inv.resetWith (h : s.params.wf = true) (image : List Byte) :
    (s.resetWith image).Inv := by
  obtain ⟨-, -, hbase, -, -⟩ := (Config.Params.wf_iff s.params).1 h
  rcases s.resetWith_cases image with ⟨hfit, he⟩ | ⟨-, he⟩ <;> rw [he]
  · have hend : s.params.programBase + image.length ≤ Config.memSize := by
      unfold Config.Params.maxImage at hfit; omega
    exact ⟨h, Memory.wf_load s.params rfl hend, Nat.zero_le _, Display.shaped_dark _ _, nofun, nofun⟩
  · exact ⟨h, rfl, Nat.zero_le _, Display.shaped_dark _ _, nofun,
      fun _ hr => congrArg Status.error (RunState.halted.inj hr)⟩

/-- While Running nothing is owed to an error, whatever the clause on the status says. -/
theorem halt_reported_of_running {r : RunState} (hr : r = .running) (st : Status) :
    ∀ e, r = .halted e → st = .error e := by
  rintro e rfl; cases hr

/-- Every effect of an instruction executed while Running keeps the invariant. -/
theorem Effect.keeps_inv (he : Effect s i t) (hr : s.run = .running) (h : s.Inv) : t.Inv := by
  have run := halt_reported_of_running hr
  have ⟨hparams, hmem, hstack, hdisp, _, _⟩ := h
  cases he with
  | registers | goTo | index | delay | sound | load | stall =>
    exact ⟨hparams, hmem, hstack, hdisp, nofun, run _⟩
  | push nnn _ room =>
    refine ⟨hparams, hmem, ?_, hdisp, nofun, run _⟩
    simpa using room
  | pop l v _ hs =>
    refine ⟨hparams, hmem, ?_, hdisp, nofun, run _⟩
    rw [hs, List.length_append] at hstack
    exact Nat.le_of_add_right_le hstack
  | store x bs =>
    exact ⟨hparams, Memory.wf_writeBytes _ _ bs hmem, hstack, hdisp, nofun, run _⟩
  | clear =>
    exact ⟨hparams, hmem, hstack, Display.shaped_dark _ _,
      fun _ hf => ⟨(Option.some.inj hf).symm, rfl⟩, run _⟩
  | draw x y n V d _ hd =>
    exact ⟨hparams, hmem, hstack, Display.shaped_of_map_length hd hdisp,
      fun _ hf => ⟨(Option.some.inj hf).symm, rfl⟩, run _⟩
  | raise e => exact h.raise e

theorem State.Inv.cycle (h : s.Inv) (hc : s.cycle = .next t) : t.Inv := by
  rcases State.cycle_next hc with ⟨e, hr, rfl⟩ | ⟨hr, op, -, ⟨e, -, rfl⟩ | ⟨i, -, hi⟩⟩
  · exact h.reportHalt hr
  · exact h.raise e
  · exact (exec_effect hi).keeps_inv hr h

/-- Settles O17: the strobe is a cycle, whose instruction has one of the effects of `Effect`, or one of
the environment's other three. -/
theorem stepKeepsInvariant : Obligations.StepKeepsInvariant := by
  intro s t h hs
  have h' := h.takeStrobe
  rcases step_next hs with ⟨-, hc⟩ | ⟨-, rfl⟩ | ⟨k, -, rfl⟩ | ⟨image, -, rfl⟩
  · exact h'.cycle hc
  · exact h'.tick
  · exact h'.keyIn k
  · exact .resetWith h'.params_wf image

/-- Settles O16: no cell is listed, no frame is published, and the machine is Running. -/
theorem resetMeetsInvariant : Obligations.ResetMeetsInvariant :=
  ⟨Config.Params.reference_wf, rfl, Nat.zero_le _, Display.shaped_dark _ _, nofun, nofun⟩

/-! ### What no instruction, and what few instructions write -/

theorem Effect.config (h : Effect s i t) : t.policy = s.policy ∧ t.params = s.params := by
  cases h <;> exact ⟨rfl, rfl⟩

theorem State.cycle_config (h : s.cycle = .next t) :
    t.policy = s.policy ∧ t.params = s.params := by
  rcases State.cycle_next h with ⟨e, -, rfl⟩ | ⟨-, op, -, ⟨e, -, rfl⟩ | ⟨i, -, hi⟩⟩
  · exact ⟨rfl, rfl⟩
  · exact ⟨rfl, rfl⟩
  · exact (exec_effect hi).config

theorem State.resetWith_config (s : State) (image : List Byte) :
    (s.resetWith image).policy = s.policy ∧ (s.resetWith image).params = s.params := by
  rcases s.resetWith_cases image with ⟨-, he⟩ | ⟨-, he⟩ <;> rw [he] <;> exact ⟨rfl, rfl⟩

theorem State.takeStrobe_config (s : State) :
    s.takeStrobe.2.policy = s.policy ∧ s.takeStrobe.2.params = s.params := by
  obtain ⟨l, n, he⟩ := s.takeStrobe_eq
  rw [he]; exact ⟨rfl, rfl⟩

/-- Settles O20, strobe by strobe. -/
theorem stepKeepsPolicy : Obligations.StepKeepsPolicy := by
  intro s t h
  rw [← s.takeStrobe_config.1, ← s.takeStrobe_config.2]
  rcases step_next h with ⟨-, hc⟩ | ⟨-, rfl⟩ | ⟨k, -, rfl⟩ | ⟨image, -, rfl⟩
  · exact State.cycle_config hc
  · exact ⟨rfl, rfl⟩
  · exact ⟨rfl, rfl⟩
  · exact State.resetWith_config _ image

theorem Effect.key (h : Effect s i t) : t.key = s.key := by cases h <;> rfl

theorem Effect.writes_DT (h : Effect s i t) : t.DT ≠ s.DT → ∃ x, i = .setDelayTimer x := by
  cases h with
  | delay x hi => exact fun _ => ⟨x, hi⟩
  | _ => exact absurd rfl

theorem Effect.writes_ST (h : Effect s i t) : t.ST ≠ s.ST → ∃ x, i = .setSoundTimer x := by
  cases h with
  | sound x hi => exact fun _ => ⟨x, hi⟩
  | _ => exact absurd rfl

theorem Effect.writes_I (h : Effect s i t) : t.I ≠ s.I →
    (∃ nnn, i = .setIndexRegister nnn) ∨
    (∃ x, i = .addToIndex x ∨ i = .setIndexToFontCharacter x) ∨
    (s.policy.loadStoreI = .xPlusOne ∧ ∃ x, i = .dumpRegisters x ∨ i = .loadRegisters x) := by
  cases h with
  | index v hi => exact fun _ => hi.imp_right .inl
  | store x bs I _ hI =>
    intro hne
    obtain ⟨hp, hi⟩ := hI hne
    exact .inr (.inr ⟨hp, x, .inl hi⟩)
  | load x V I hi hI => exact fun hne => .inr (.inr ⟨hI hne, x, .inr hi⟩)
  | _ => exact absurd rfl

/-- Settles O25: each clause is read off the effects. -/
theorem writersOfIndexTimersAndLatch : Obligations.WritersOfIndexTimersAndLatch := by
  intro i s t h
  have he := exec_effect h
  exact ⟨he.key, he.writes_DT, he.writes_ST, he.writes_I⟩

end Sys2Proof.Machine

/-! PROOFS. The ports and the reset state (spec/10_state.md R42, R44, R50). -/

namespace Sys2Proof.Machine

/-! ### The frame port -/

theorem Display.bytes_cons (row : List Bool) (d : Display) :
    Display.bytes (row :: d) = row.map pixelByte ++ Display.bytes d := rfl

/-- In a display `w` wide, the byte of pixel `px` of row `py` stands at `py * w + px`. -/
theorem Display.bytes_getElem? {w : Nat} {d : Display} (hd : ∀ row ∈ d, row.length = w) {px py : Nat}
    (hx : px < w) (hy : py < d.length) :
    d.bytes[py * w + px]? = some (pixelByte (d.pixel px py)) := by
  induction d generalizing py with
  | nil => exact absurd hy (Nat.not_lt_zero _)
  | cons row d ih =>
    obtain ⟨hrow, hd⟩ := List.forall_mem_cons.1 hd
    rw [Display.bytes_cons]
    cases py with
    | zero =>
      rw [List.getElem?_append_left (by simp; omega)]
      simp [Display.pixel, hrow, hx]
    | succ py =>
      have hskip : (py + 1) * w + px = (row.map pixelByte).length + (py * w + px) := by
        rw [List.length_map, hrow]; ring
      rw [hskip, List.getElem?_append_right (Nat.le_add_right _ _), Nat.add_sub_cancel_left,
        ih hd (Nat.lt_of_succ_lt_succ hy)]
      rfl

theorem Display.length_bytes {w : Nat} {d : Display} (hd : ∀ row ∈ d, row.length = w) :
    d.bytes.length = d.length * w := by
  induction d with
  | nil => exact (Nat.zero_mul w).symm
  | cons row d ih =>
    obtain ⟨hrow, hd⟩ := List.forall_mem_cons.1 hd
    rw [Display.bytes_cons, List.length_append, List.length_map, hrow, ih hd, List.length_cons]
    ring

/-- Settles O56, from the place and number of the bytes of rows of one length. -/
theorem frameBytesRowMajor : Obligations.FrameBytesRowMajor := by
  intro s d hf hd
  obtain ⟨hh, hw⟩ := Display.shaped_iff.1 hd
  refine ⟨d.bytes, by rw [State.framePort, hf]; rfl, ?_, ?_⟩
  · rw [Display.length_bytes hw, hh, Nat.mul_comm]
  · intro px py hx hy
    exact Display.bytes_getElem? hw hx (hh.symm ▸ hy)

/-! ### The key strobe -/

theorem State.keyIn_sameBut (s : State) (k : Option Key) : SameButList [.key] s (s.keyIn k) := by
  intro p hp
  cases p with
  | key => exact absurd (List.mem_singleton.2 rfl) hp
  | _ => rfl

/-- Settles O12: the step is `State.keyIn` on the state in which the strobe is taken. -/
theorem keyStrobeSetsLatch : Obligations.KeyStrobeSetsLatch := by
  intro s k hk
  exact ⟨s.takeStrobe.2.keyIn k, by rw [step_eq, hk]; rfl, rfl, State.keyIn_sameBut _ k⟩

/-! ### The reset state -/

/-- No cell is listed after a reset with the empty image. -/
theorem State.byte_reset (a : Nat) :
    State.reset.byte a = Memory.unlisted Config.Params.reference a := rfl

/-- Below and above the font an unlisted address reads as 0x00 (spec/20_memory.md R64). -/
theorem Memory.unlisted_of_outside {p : Config.Params} {a : Nat}
    (h : a < p.fontBase ∨ p.fontBase + p.fontSize ≤ a) : Memory.unlisted p a = 0 := by
  unfold Memory.unlisted
  rw [if_neg (by omega)]

/-- Settles O15: the fields by evaluation, the font's 80 bytes among them. -/
theorem resetStateHoldsSpecValues : Obligations.ResetStateHoldsSpecValues := by
  have hreg : ∀ r, State.reset.reg r = 0 := by decide
  have hlow : ∀ a, a < 0x050 → State.reset.byte a = 0 := fun a ha =>
    (State.byte_reset a).trans (Memory.unlisted_of_outside (.inl ha))
  have hhigh : ∀ a, 0x0A0 ≤ a → State.reset.byte a = 0 := fun a ha =>
    (State.byte_reset a).trans (Memory.unlisted_of_outside (.inr ha))
  exact ⟨hreg, rfl, rfl, rfl, rfl, rfl, Display.pixel_dark 64 32, Display.shaped_dark 64 32, rfl, rfl,
    rfl, rfl, rfl, rfl, rfl, rfl, rfl, hlow, by decide, hhigh⟩

end Sys2Proof.Machine

/-! PROOFS. Two runs side by side, from states that agree but for what a relation lets differ in `pc`,
`I`, the stack entries and `ST`. With equality on addresses and any `ST` this is that no instruction reads
`ST` (spec/10_state.md R28); with addresses modulo the size of memory and equal `ST`, R26. -/

namespace Sys2Proof.Machine

/-! ### Agreement of states and of results -/

/-- The states agree but for `pc`, `I` and the stack entries, related by `E`, and `ST`, related by `F`. -/
structure AgreeUpTo (E : Word → Word → Prop) (F : Byte → Byte → Prop) (s t : State) : Prop where
  pc : E s.pc t.pc
  I : E s.I t.I
  stack : List.Forall₂ E s.stack t.stack
  ST : F s.ST t.ST
  rest : t = { s with pc := t.pc, I := t.I, stack := t.stack, ST := t.ST }

/-- From `a` on and from `b` on the same bytes are reached, or the same addresses stop the access. -/
def SameReach (p : Config.AddrPolicy) (a b : Nat) : Prop := ∀ n, ea p (a + n) = ea p (b + n)

/-- What an address relation needs for the machine not to tell related addresses apart under the policy:
words advance alike and reach the same byte, or are stopped alike. -/
structure AddressCongr (p : Config.AddrPolicy) (E : Word → Word → Prop) : Prop where
  refl : ∀ a, E a a
  add : ∀ {a b}, E a b → ∀ c, E (a + c) (b + c)
  reach : ∀ {a b}, E a b → SameReach p a.toNat b.toNat

/-- Both succeed with related values, or both fail with the same error. -/
def AgreeOrFail {ε α : Type} (R : α → α → Prop) (a b : Except ε α) : Prop :=
  (∃ u v, a = .ok u ∧ b = .ok v ∧ R u v) ∨ ∃ e, a = .error e ∧ b = .error e

/-- Both complete in related states, or both stop with the same fault. -/
def ResultsAgree (R : State → State → Prop) (a b : Result) : Prop :=
  (∃ u v, a = .next u ∧ b = .next v ∧ R u v) ∨ ∃ f, a = .fault f ∧ b = .fault f

variable {E : Word → Word → Prop} {F : Byte → Byte → Prop} {R : State → State → Prop} {s t : State}

theorem SameReach.succ {p : Config.AddrPolicy} {a b : Nat} (h : SameReach p a b) :
    SameReach p (a + 1) (b + 1) := fun n => by
  rw [Nat.add_assoc, Nat.add_assoc]; exact h (1 + n)

theorem ResultsAgree.next (h : R s t) : ResultsAgree R (.next s) (.next t) :=
  .inl ⟨s, t, rfl, rfl, h⟩

theorem ResultsAgree.fault (f : Fault) : ResultsAgree R (.fault f) (.fault f) := .inr ⟨f, rfl, rfl⟩

theorem AgreeUpTo.exists_eq (h : AgreeUpTo E F s t) :
    ∃ pc I stack ST, t = { s with pc := pc, I := I, stack := stack, ST := ST } :=
  ⟨_, _, _, _, h.rest⟩

/-! ### The shared operations keep the agreement -/

section
variable (h : AgreeUpTo E F s t)
include h

theorem AgreeUpTo.policy : t.policy = s.policy := by rw [h.rest]
theorem AgreeUpTo.params : t.params = s.params := by rw [h.rest]
theorem AgreeUpTo.key : t.key = s.key := by rw [h.rest]
theorem AgreeUpTo.disp : t.disp = s.disp := by rw [h.rest]
theorem AgreeUpTo.reg (x : RegIdx) : t.reg x = s.reg x := by rw [h.rest]; rfl
theorem AgreeUpTo.regBlock (x : RegIdx) : t.regBlock x = s.regBlock x := by rw [h.rest]; rfl

theorem AgreeUpTo.advance {p : Config.AddrPolicy} (hE : AddressCongr p E) :
    AgreeUpTo E F s.advance t.advance := by
  obtain ⟨pc, I, stack, ST, rfl⟩ := h.exists_eq
  exact ⟨hE.add h.pc 2, h.I, h.stack, h.ST, rfl⟩

theorem AgreeUpTo.setReg (x : RegIdx) (v : Byte) : AgreeUpTo E F (s.setReg x v) (t.setReg x v) := by
  obtain ⟨pc, I, stack, ST, rfl⟩ := h.exists_eq
  exact ⟨h.pc, h.I, h.stack, h.ST, rfl⟩

theorem AgreeUpTo.setByte (a : Nat) (v : Byte) : AgreeUpTo E F (s.setByte a v) (t.setByte a v) := by
  obtain ⟨pc, I, stack, ST, rfl⟩ := h.exists_eq
  exact ⟨h.pc, h.I, h.stack, h.ST, rfl⟩

theorem AgreeUpTo.publish : AgreeUpTo E F s.publish t.publish := by
  obtain ⟨pc, I, stack, ST, rfl⟩ := h.exists_eq
  exact ⟨h.pc, h.I, h.stack, h.ST, rfl⟩

theorem AgreeUpTo.stall : AgreeUpTo E F s.stall t.stall := by
  obtain ⟨pc, I, stack, ST, rfl⟩ := h.exists_eq
  exact ⟨h.pc, h.I, h.stack, h.ST, rfl⟩

theorem AgreeUpTo.raise (e : Error) : AgreeUpTo E F (s.raise e) (t.raise e) := by
  obtain ⟨pc, I, stack, ST, rfl⟩ := h.exists_eq
  exact ⟨h.pc, h.I, h.stack, h.ST, rfl⟩

theorem AgreeUpTo.setPc {a b : Word} (hab : E a b) :
    AgreeUpTo E F { s with pc := a } { t with pc := b } := by
  obtain ⟨pc, I, stack, ST, rfl⟩ := h.exists_eq
  exact ⟨hab, h.I, h.stack, h.ST, rfl⟩

theorem AgreeUpTo.setI {a b : Word} (hab : E a b) :
    AgreeUpTo E F { s with I := a } { t with I := b } := by
  obtain ⟨pc, I, stack, ST, rfl⟩ := h.exists_eq
  exact ⟨h.pc, hab, h.stack, h.ST, rfl⟩

theorem AgreeUpTo.setStack {k l : List Word} (hkl : List.Forall₂ E k l) :
    AgreeUpTo E F { s with stack := k } { t with stack := l } := by
  obtain ⟨pc, I, stack, ST, rfl⟩ := h.exists_eq
  exact ⟨h.pc, h.I, hkl, h.ST, rfl⟩

theorem AgreeUpTo.setDisp (d : Display) :
    AgreeUpTo E F { s with disp := d } { t with disp := d } := by
  obtain ⟨pc, I, stack, ST, rfl⟩ := h.exists_eq
  exact ⟨h.pc, h.I, h.stack, h.ST, rfl⟩

theorem AgreeUpTo.setDT (v : Byte) : AgreeUpTo E F { s with DT := v } { t with DT := v } := by
  obtain ⟨pc, I, stack, ST, rfl⟩ := h.exists_eq
  exact ⟨h.pc, h.I, h.stack, h.ST, rfl⟩

theorem AgreeUpTo.setST {v w : Byte} (hvw : F v w) :
    AgreeUpTo E F { s with ST := v } { t with ST := w } := by
  obtain ⟨pc, I, stack, ST, rfl⟩ := h.exists_eq
  exact ⟨h.pc, h.I, h.stack, hvw, rfl⟩

theorem AgreeUpTo.drawByte :
    t.drawByte.1 = s.drawByte.1 ∧ AgreeUpTo E F s.drawByte.2 t.drawByte.2 := by
  obtain ⟨pc, I, stack, ST, rfl⟩ := h.exists_eq
  exact ⟨rfl, h.pc, h.I, h.stack, h.ST, rfl⟩

theorem AgreeUpTo.skipIf {p : Config.AddrPolicy} (hE : AddressCongr p E) (c : Bool) :
    AgreeUpTo E F (s.skipIf c) (t.skipIf c) := by
  cases c with
  | false => exact h
  | true => exact h.setPc (hE.add h.pc 2)

theorem AgreeUpTo.stepIndex {p : Config.AddrPolicy} (hE : AddressCongr p E) (x : RegIdx) :
    AgreeUpTo E F (s.stepIndex x) (t.stepIndex x) := by
  obtain ⟨pc, I, stack, ST, rfl⟩ := h.exists_eq
  unfold State.stepIndex
  cases s.policy.loadStoreI with
  | unchanged => exact h
  | xPlusOne => exact h.setI (hE.add h.I _)

theorem AgreeUpTo.setResultFlag (x : RegIdx) (r f al : Byte) :
    AgreeUpTo E F (s.setResultFlag x r f al) (t.setResultFlag x r f al) := by
  unfold State.setResultFlag
  rw [h.policy, h.drawByte.1]
  split_ifs
  · exact (h.setReg x r).setReg regF f
  · cases s.policy.vfAlias with
    | draw => exact h.drawByte.2.setReg regF _
    | flagLast => exact h.setReg regF f
    | textOrder => exact h.setReg regF al

theorem AgreeUpTo.setRegBlock (i : Nat) (bs : List Byte) :
    AgreeUpTo E F (s.setRegBlock i bs) (t.setRegBlock i bs) := by
  induction bs generalizing s t i with
  | nil => exact h
  | cons b bs ih => exact ih (h.setReg _ b) (i + 1)

/-- Accesses at addresses with the same effective address read the same byte. -/
theorem AgreeUpTo.memRead {a b : Nat} (hab : ea s.policy.addr a = ea s.policy.addr b) :
    t.memRead b = s.memRead a := by
  obtain ⟨pc, I, stack, ST, rfl⟩ := h.exists_eq
  unfold State.memRead
  rw [hab]
  rfl

theorem AgreeUpTo.readBlock {a b : Nat} (hab : SameReach s.policy.addr a b) (n : Nat) :
    t.readBlock b n = s.readBlock a n := by
  induction n generalizing a b with
  | zero => rfl
  | succ n ih =>
    have hfirst : t.memRead b = s.memRead a := h.memRead (hab 0)
    unfold State.readBlock
    rw [hfirst, ih hab.succ]

theorem AgreeUpTo.writeBlock {a b : Nat} (hab : SameReach s.policy.addr a b)
    (bs : List Byte) :
    AgreeOrFail (AgreeUpTo E F) (s.writeBlock a bs) (t.writeBlock b bs) := by
  induction bs generalizing s t a b with
  | nil => exact .inl ⟨s, t, rfl, rfl, h⟩
  | cons v bs ih =>
    have hfirst : ea t.policy.addr b = ea s.policy.addr a := by rw [h.policy]; exact (hab 0).symm
    unfold State.writeBlock State.memWrite
    rw [hfirst]
    cases ea s.policy.addr a with
    | ok a' => exact ih (h.setByte a' v) hab.succ
    | error f => exact .inr ⟨f, rfl, rfl⟩

theorem AgreeUpTo.push {v w : Word} (hvw : E v w) :
    AgreeOrFail (AgreeUpTo E F) (s.push v) (t.push w) := by
  have hlen := h.stack.length_eq
  have hpar := h.params
  rcases s.push_cases v with ⟨hs, hp⟩ | ⟨hs, hp⟩ <;> rcases t.push_cases w with ⟨ht, hq⟩ | ⟨ht, hq⟩
  · exact .inr ⟨_, hp, hq⟩
  · rw [hpar] at ht; omega
  · rw [hpar] at ht; omega
  · exact .inl ⟨_, _, hp, hq, h.setStack (List.rel_append h.stack (.cons hvw .nil))⟩

theorem AgreeUpTo.pop :
    AgreeOrFail (fun a b => E a.1 b.1 ∧ AgreeUpTo E F a.2 b.2) s.pop t.pop := by
  have hst := h.stack
  rcases s.pop_cases with ⟨hs, hp⟩ | ⟨k, v, hs, hp⟩ <;>
    rcases t.pop_cases with ⟨ht, hq⟩ | ⟨l, w, ht, hq⟩ <;> rw [hs, ht] at hst
  · exact .inr ⟨_, hp, hq⟩
  · simp at hst
  · simp at hst
  · have hrev := List.forall₂_reverse_iff.2 hst
    simp only [List.reverse_append, List.reverse_singleton, List.singleton_append,
      List.forall₂_cons] at hrev
    obtain ⟨hlast, hinit⟩ := hrev
    exact .inl ⟨_, _, hp, hq, hlast, h.setStack (List.forall₂_reverse_iff.1 hinit)⟩

end

/-! ### Instructions -/

theorem AgreeOrFail.ofAccess {a b : Except Fault State} (h : AgreeOrFail R a b) :
    ResultsAgree R (ofAccess a) (ofAccess b) := by
  rcases h with ⟨u, v, rfl, rfl, h⟩ | ⟨f, rfl, rfl⟩
  · exact .next h
  · exact .fault f

section
variable (h : AgreeUpTo E F s t) (hE : AddressCongr s.policy.addr E)
include h hE

theorem execCall_agree (nnn : Addr) :
    ResultsAgree (AgreeUpTo E F) (execCall nnn s) (execCall nnn t) := by
  have hadv := h.advance hE
  unfold execCall
  rcases hadv.push hadv.pc with ⟨u, v, hu, hv, h'⟩ | ⟨e, hs, ht⟩
  · rw [hu, hv]; exact .next (h'.setPc (hE.refl _))
  · rw [hs, ht]; exact .next (h.raise e)

theorem execReturn_agree : ResultsAgree (AgreeUpTo E F) (execReturn s) (execReturn t) := by
  unfold execReturn
  rcases (h.advance hE).pop with ⟨u, v, hu, hv, hpc, h'⟩ | ⟨e, hs, ht⟩
  · rw [hu, hv]; exact .next (h'.setPc hpc)
  · rw [hs, ht]; exact .next (h.raise e)

theorem execDraw_agree (x y : RegIdx) (n : BitVec 4) :
    ResultsAgree (AgreeUpTo E F) (execDraw x y n s) (execDraw x y n t) := by
  have hread : t.readBlock t.dataBase n.toNat = s.readBlock s.dataBase n.toNat :=
    h.readBlock (hE.reach h.I) n.toNat
  unfold execDraw
  rw [hread, h.reg, h.reg, h.params, h.disp]
  cases s.readBlock s.dataBase n.toNat with
  | error f => exact .fault f
  | ok rows => exact .next (((h.advance hE).setDisp _).setReg regF _).publish

theorem execAwaitKeyInput_agree (x : RegIdx) :
    ResultsAgree (AgreeUpTo E F) (execAwaitKeyInput x s) (execAwaitKeyInput x t) := by
  unfold execAwaitKeyInput
  rw [h.key]
  cases s.key with
  | none => exact .next h.stall
  | some k => exact .next ((h.advance hE).setReg x _)

theorem execSetIndexToBinaryCodedVx_agree (x : RegIdx) :
    ResultsAgree (AgreeUpTo E F) (execSetIndexToBinaryCodedVx x s)
      (execSetIndexToBinaryCodedVx x t) := by
  unfold execSetIndexToBinaryCodedVx
  rw [h.reg]
  exact ((h.advance hE).writeBlock (hE.reach h.I) _).ofAccess

theorem execDumpRegisters_agree (x : RegIdx) :
    ResultsAgree (AgreeUpTo E F) (execDumpRegisters x s) (execDumpRegisters x t) := by
  have hwrite : AgreeOrFail (AgreeUpTo E F) (s.advance.writeBlock s.dataBase (s.regBlock x))
      (t.advance.writeBlock t.dataBase (t.regBlock x)) := by
    rw [h.regBlock]; exact (h.advance hE).writeBlock (hE.reach h.I) _
  unfold execDumpRegisters
  rcases hwrite with ⟨u, v, hu, hv, h'⟩ | ⟨f, hs, ht⟩
  · rw [hu, hv]; exact .next (h'.stepIndex hE x)
  · rw [hs, ht]; exact .fault f

theorem execLoadRegisters_agree (x : RegIdx) :
    ResultsAgree (AgreeUpTo E F) (execLoadRegisters x s) (execLoadRegisters x t) := by
  have hread : t.readBlock t.dataBase (x.toNat + 1) = s.readBlock s.dataBase (x.toNat + 1) :=
    h.readBlock (hE.reach h.I) (x.toNat + 1)
  unfold execLoadRegisters
  rw [hread]
  cases s.readBlock s.dataBase (x.toNat + 1) with
  | error f => exact .fault f
  | ok bs => exact .next (((h.advance hE).setRegBlock 0 bs).stepIndex hE x)

/-- An instruction does not tell agreeing states apart: it takes them to agreeing states, or stops in
both with the same fault. -/
theorem exec_agree (hF : ∀ v, F v v) (i : Instr) :
    ResultsAgree (AgreeUpTo E F) (exec i s) (exec i t) := by
  have hadv := h.advance hE
  obtain ⟨pc, I, stack, ST, rfl⟩ := h.exists_eq
  cases i with
  | clear => exact .next (hadv.setDisp _).publish
  | ret => exact execReturn_agree h hE
  | incompatibleProgram nnn => exact .next (h.raise _)
  | jump nnn => exact .next (hadv.setPc (hE.refl _))
  | call nnn => exact execCall_agree h hE nnn
  | skipIfVxEqualsNn x nn => exact .next (hadv.skipIf hE _)
  | skipIfVxNotEqualsNn x nn => exact .next (hadv.skipIf hE _)
  | skipIfVxEqualsVy x y => exact .next (hadv.skipIf hE _)
  | setImmediate x nn => exact .next (hadv.setReg x _)
  | addImmediate x nn => exact .next (hadv.setReg x _)
  | copy x y => exact .next (hadv.setReg x _)
  | or x y => exact .next (hadv.setReg x _)
  | and x y => exact .next (hadv.setReg x _)
  | xor x y => exact .next (hadv.setReg x _)
  | add x y => exact .next (hadv.setResultFlag x _ _ _)
  | subtract x y => exact .next (hadv.setResultFlag x _ _ _)
  | rightShift x y => exact .next (hadv.setResultFlag x _ _ _)
  | setVxToVyMinusVx x y => exact .next (hadv.setResultFlag x _ _ _)
  | leftShift x y => exact .next (hadv.setResultFlag x _ _ _)
  | skipIfVxNotEqualsVy x y => exact .next (hadv.skipIf hE _)
  | setIndexRegister nnn => exact .next (hadv.setI (hE.refl _))
  | jumpWithPcOffset nnn => exact .next (hadv.setPc (hE.refl _))
  | random x nn => exact .next (hadv.drawByte.2.setReg x _)
  | draw x y n => exact execDraw_agree h hE x y n
  | skipIfKeyPressed x => exact .next (hadv.skipIf hE _)
  | skipIfKeyNotPressed x => exact .next (hadv.skipIf hE _)
  | setVxToDelayTimer x => exact .next (hadv.setReg x _)
  | awaitKeyInput x => exact execAwaitKeyInput_agree h hE x
  | setDelayTimer x => exact .next (hadv.setDT _)
  | setSoundTimer x => exact .next (hadv.setST (hF _))
  | addToIndex x => exact .next (hadv.setI (hE.add h.I _))
  | setIndexToFontCharacter x => exact .next (hadv.setI (hE.refl _))
  | setIndexToBinaryCodedVx x => exact execSetIndexToBinaryCodedVx_agree h hE x
  | dumpRegisters x => exact execDumpRegisters_agree h hE x
  | loadRegisters x => exact execLoadRegisters_agree h hE x

end

/-! ### No instruction reads `ST` -/

theorem addressCongr_eq (p : Config.AddrPolicy) : AddressCongr p Eq where
  refl _ := rfl
  add h _ := by rw [h]
  reach h _ := by rw [h]

/-- With equal addresses and nothing asked of `ST`, states that agree differ at most in `ST`. -/
theorem AgreeUpTo.sameBut_ST (h : AgreeUpTo Eq (fun _ _ => True) s t) : SameButList [.ST] s t := by
  have hpc := h.pc
  have hI := h.I
  have hstack : s.stack = t.stack := by rw [← List.forall₂_eq_eq_eq]; exact h.stack
  obtain ⟨pc, I, stack, ST, rfl⟩ := h.exists_eq
  intro p hp
  cases p with
  | pc => exact hpc.symm
  | I => exact hI.symm
  | stack => exact hstack.symm
  | ST => exact absurd (List.mem_singleton.2 rfl) hp
  | _ => rfl

/-- Settles O27: the two runs agree for the equality of addresses, whatever `ST` is. -/
theorem noInstructionReadsSoundTimer : Obligations.NoInstructionReadsSoundTimer := by
  intro i s v
  have hstart : AgreeUpTo Eq (fun _ _ => True) s { s with ST := v } :=
    ⟨rfl, rfl, List.forall₂_refl _, trivial, rfl⟩
  rcases exec_agree hstart (addressCongr_eq _) (fun _ => trivial) i with
    ⟨u, w, hu, hw, h⟩ | ⟨f, hf, hg⟩
  · rw [hu, hw]
    exact ⟨fun t ht => ⟨w, rfl, Host.Outcome.next.inj ht ▸ h.sameBut_ST⟩,
      fun _ hn => (by cases hn)⟩
  · rw [hf, hg]
    exact ⟨fun _ hn => (by cases hn), fun _ => id⟩

/-! ### Steps -/

section
variable (h : AgreeUpTo E F s t)
include h

theorem AgreeUpTo.takeStrobe : t.takeStrobe.1 = s.takeStrobe.1 ∧
    AgreeUpTo E F s.takeStrobe.2 t.takeStrobe.2 := by
  obtain ⟨pc, I, stack, ST, rfl⟩ := h.exists_eq
  unfold State.takeStrobe
  cases s.strobes with
  | nil => exact ⟨rfl, h.pc, h.I, h.stack, h.ST, rfl⟩
  | cons b rest => exact ⟨rfl, h.pc, h.I, h.stack, h.ST, rfl⟩

theorem AgreeUpTo.tick (hF : ∀ {v w}, F v w → F (decrement v) (decrement w)) :
    AgreeUpTo E F s.tick t.tick := by
  obtain ⟨pc, I, stack, ST, rfl⟩ := h.exists_eq
  exact ⟨h.pc, h.I, h.stack, hF h.ST, rfl⟩

theorem AgreeUpTo.keyIn (k : Option Key) : AgreeUpTo E F (s.keyIn k) (t.keyIn k) := by
  obtain ⟨pc, I, stack, ST, rfl⟩ := h.exists_eq
  exact ⟨h.pc, h.I, h.stack, h.ST, rfl⟩

/-- A reset reads nothing of what agreeing states may differ in. -/
theorem AgreeUpTo.resetWith_eq (image : List Byte) : t.resetWith image = s.resetWith image := by
  obtain ⟨pc, I, stack, ST, rfl⟩ := h.exists_eq
  rfl

theorem AgreeUpTo.reportHalt (e : Error) : AgreeUpTo E F (s.reportHalt e) (t.reportHalt e) := by
  obtain ⟨pc, I, stack, ST, rfl⟩ := h.exists_eq
  exact ⟨h.pc, h.I, h.stack, h.ST, rfl⟩

theorem AgreeUpTo.fetchWord (hE : AddressCongr s.policy.addr E) : t.fetchWord = s.fetchWord := by
  have hhi : t.memRead t.pc.toNat = s.memRead s.pc.toNat := h.memRead (hE.reach h.pc 0)
  have hlo : t.memRead (t.pc.toNat + 1) = s.memRead (s.pc.toNat + 1) := h.memRead (hE.reach h.pc 1)
  unfold State.fetchWord
  rw [hhi, hlo]

/-- Cycles agree where ODD_PC_POLICY does not look at `pc` itself. -/
theorem cycle_agree (hE : AddressCongr s.policy.addr E) (hF : ∀ v, F v v)
    (ho : s.policy.oddPc = .fetch) : ResultsAgree (AgreeUpTo E F) s.cycle t.cycle := by
  have hrun : t.run = s.run := by rw [h.rest]
  have hfetch : t.fetch = s.fetch := by
    rw [State.fetch_of_aligned (.inl ho), State.fetch_of_aligned (.inl (h.policy ▸ ho)),
      h.fetchWord hE]
  unfold State.cycle State.runCycle
  rw [hrun, hfetch, h.policy]
  cases s.run with
  | halted e => exact .next (h.reportHalt e)
  | running =>
    cases s.fetch with
    | error f => exact .fault f
    | ok op =>
      dsimp only
      cases decode s.policy.lowNibble op with
      | error e => exact .next (h.raise e)
      | ok i => exact exec_agree h hE hF i

/-- Steps agree, whatever the strobe. -/
theorem step_agree (hE : AddressCongr s.policy.addr E) (hF : ∀ v, F v v)
    (hF' : ∀ {v w}, F v w → F (decrement v) (decrement w)) (ho : s.policy.oddPc = .fetch) :
    ResultsAgree (AgreeUpTo E F) (step s) (step t) := by
  obtain ⟨hstrobe, h'⟩ := h.takeStrobe
  obtain ⟨hpolicy, -⟩ := s.takeStrobe_config
  rw [step_eq, step_eq, hstrobe]
  cases s.takeStrobe.1 with
  | cycle => exact cycle_agree h' (hpolicy ▸ hE) hF (hpolicy ▸ ho)
  | tick => exact .next (h'.tick hF')
  | keyIn k => exact .next (h'.keyIn k)
  | reset image =>
    have hreset := h'.resetWith_eq image
    refine .next (hreset ▸ ?_)
    exact ⟨hE.refl _, hE.refl _, List.forall₂_same.2 fun _ _ => hE.refl _, hF _, rfl⟩

end

/-! ### Under mask every step completes -/

theorem exec_completes {s : State} (ha : s.policy.addr = .mask) (i : Instr) :
    ∃ t, exec i s = .next t := by
  cases i with
  | ret =>
    rcases s.advance.pop_cases with ⟨-, hp⟩ | ⟨l, v, -, hp⟩ <;>
      exact ⟨_, by rw [exec, execReturn, hp]; rfl⟩
  | call nnn =>
    rcases s.advance.push_cases s.advance.pc with ⟨-, hp⟩ | ⟨-, hp⟩ <;>
      exact ⟨_, by rw [exec, execCall, hp]; rfl⟩
  | draw x y n =>
    exact ⟨_, by rw [exec, execDraw, State.readBlock_of_addressable (.inl ha)]; rfl⟩
  | awaitKeyInput x => cases hk : s.key <;> exact ⟨_, by rw [exec, execAwaitKeyInput, hk]⟩
  | setIndexToBinaryCodedVx x =>
    have hwrite := State.writeBlock_of_addressable (s := s.advance) (a := s.dataBase)
      (bs := bcdDigits (s.reg x)) (.inl ha)
    exact ⟨_, by rw [exec, execSetIndexToBinaryCodedVx, hwrite]; rfl⟩
  | dumpRegisters x =>
    have hwrite := State.writeBlock_of_addressable (s := s.advance) (a := s.dataBase)
      (bs := s.regBlock x) (.inl ha)
    exact ⟨_, by rw [exec, execDumpRegisters, hwrite]; rfl⟩
  | loadRegisters x =>
    exact ⟨_, by rw [exec, execLoadRegisters, State.readBlock_of_addressable (.inl ha)]; rfl⟩
  | _ => exact ⟨_, rfl⟩

theorem State.cycle_completes {s : State} (ha : s.policy.addr = .mask)
    (ho : s.policy.oddPc = .fetch) : ∃ t, s.cycle = .next t := by
  cases hr : s.run with
  | halted e => exact ⟨_, State.cycle_of_halted hr⟩
  | running =>
    have hf := State.fetch_eq_wordAtPc (s := s) ⟨.inl ho, .inl ha⟩
    rw [State.cycle_of_running hr]
    cases hd : decode s.policy.lowNibble s.wordAtPc with
    | error e => exact ⟨_, State.runCycle_of_malformed hf hd⟩
    | ok i => rw [State.runCycle_of_decoded hf hd]; exact exec_completes ha i

theorem step_completes {s : State} (ha : s.policy.addr = .mask) (ho : s.policy.oddPc = .fetch) :
    ∃ t, step s = .next t := by
  obtain ⟨hpolicy, -⟩ := s.takeStrobe_config
  rw [step_eq]
  cases s.takeStrobe.1 with
  | cycle => exact State.cycle_completes (hpolicy ▸ ha) (hpolicy ▸ ho)
  | tick => exact ⟨_, rfl⟩
  | keyIn k => exact ⟨_, rfl⟩
  | reset image => exact ⟨_, rfl⟩

/-! ### Addresses modulo the size of memory -/

theorem addressCongr_sameAddress : AddressCongr .mask sameAddress where
  refl _ := rfl
  add h c := by
    simp only [sameAddress, Config.memSize, BitVec.toNat_add] at h ⊢
    omega
  reach h n := by
    simp only [sameAddress, Config.memSize, ea, Except.ok.injEq] at h ⊢
    omega

/-- The agreement of Safety.lean is the one with addresses modulo the size of memory and equal `ST`. -/
theorem sameModuloMemSize_iff : SameModuloMemSize s t ↔ AgreeUpTo sameAddress Eq s t := by
  constructor
  · rintro ⟨hpc, hI, hstack, hrest⟩
    have hST : s.ST = t.ST := by rw [hrest]
    exact ⟨hpc, hI, hstack, hST, hST ▸ hrest⟩
  · rintro ⟨hpc, hI, hstack, hST, hrest⟩
    exact ⟨hpc, hI, hstack, hST ▸ hrest⟩

/-- Settles O28: both steps complete, and they agree for addresses modulo the size of memory. -/
theorem addressesModuloMemSize : Obligations.AddressesModuloMemSize := by
  intro s t h ha ho
  have hE : AddressCongr s.policy.addr sameAddress := ha ▸ addressCongr_sameAddress
  rcases step_agree (sameModuloMemSize_iff.1 h) hE (fun _ => rfl) (congrArg decrement) ho with
    ⟨s', t', hs, ht, h'⟩ | ⟨f, hs, -⟩
  · exact ⟨s', t', hs, ht, sameModuloMemSize_iff.2 h'⟩
  · obtain ⟨u, hu⟩ := step_completes ha ho
    cases hs.symm.trans hu

end Sys2Proof.Machine

/-! PROOFS. Which instruction a cycle runs, and when the policies stop its fetch
(spec/20_memory.md R62, R66, R68; spec/40_cycle.md R121). -/

namespace Sys2Proof

/-- Decoding the word of a well-formed instruction gives it back, by the fields of its word. -/
theorem decode_encode (p : Config.LowNibblePolicy) {i : Instr} (h : wellFormed i = true) :
    decode p (encode i) = .ok i := by
  cases i with
  | clear | ret => rfl
  | incompatibleProgram nnn =>
    obtain ⟨hs, hn⟩ := fields_nnn 0x0#4 nnn
    have hne : nnn ≠ 0x0E0 ∧ nnn ≠ 0x0EE := by simpa [wellFormed] using h
    have hclear : 0x0#4 ++ nnn ≠ 0x00E0 := fun he => hne.1 (by rw [← hn, he]; rfl)
    have hret : 0x0#4 ++ nnn ≠ 0x00EE := fun he => hne.2 (by rw [← hn, he]; rfl)
    simp only [encode, decode, decodeSelector0, hs, hn, if_neg hclear, if_neg hret]
    rfl
  | jump | call | setIndexRegister | jumpWithPcOffset =>
    simp only [encode, decode, fields_nnn]
    rfl
  | skipIfVxEqualsNn | skipIfVxNotEqualsNn | setImmediate | addImmediate | random =>
    simp only [encode, decode, fields_xnn]
    rfl
  | skipIfVxEqualsVy | skipIfVxNotEqualsVy =>
    simp only [encode, decode, decodeLowNibble, fields_xyn]
    rfl
  | copy | or | and | xor | add | subtract | rightShift | setVxToVyMinusVx | leftShift =>
    simp only [encode, decode, decodeSelector8, fields_xyn]
    rfl
  | draw =>
    simp only [encode, decode, fields_xyn]
    rfl
  | skipIfKeyPressed | skipIfKeyNotPressed =>
    simp only [encode, decode, decodeSelectorE, fields_xnn]
    rfl
  | setVxToDelayTimer | awaitKeyInput | setDelayTimer | setSoundTimer | addToIndex
  | setIndexToFontCharacter | setIndexToBinaryCodedVx | dumpRegisters | loadRegisters =>
    simp only [encode, decode, decodeSelectorF, fields_xnn]
    rfl

/-- A word numbered as a table word of 16 bits is itself. -/
theorem wordOfTable_toNat (op : Word) : wordOfTable 16 op.toNat = op := by
  apply BitVec.eq_of_toNat_eq
  rw [wordOfTable, BitVec.toNat_ofNat, Nat.mod_mod, Nat.mod_eq_of_lt op.isLt]

end Sys2Proof

namespace Sys2Proof.Machine

variable {s : State}

/-! ### The state in which a strobe is taken -/

theorem State.takeStrobe_run (s : State) : s.takeStrobe.2.run = s.run := by
  obtain ⟨l, n, he⟩ := s.takeStrobe_eq
  rw [he]

/-- The fetch reads nothing that taking a strobe touches. -/
theorem State.takeStrobe_fetch (s : State) : s.takeStrobe.2.fetch = s.fetch := by
  obtain ⟨l, n, he⟩ := s.takeStrobe_eq
  have hread (a : Nat) : ({ s with strobes := l, choices := n } : State).memRead a = s.memRead a := rfl
  rw [he]
  simp only [State.fetch, State.fetchWord, hread]

/-- A step whose strobe is a cycle taken while Running is the fetch, decode and execute of R121. -/
theorem step_of_running_cycle (hr : s.run = .running) (hc : s.cycleNext) :
    step s = s.takeStrobe.2.runCycle := by
  rw [step_of_cycle hc, State.cycle_of_running (s.takeStrobe_run.trans hr)]

/-! ### The decoded instruction -/

/-- Settles O6: the fetch gives the word at `pc`, and taking the strobe changes neither. -/
theorem stepRunsDecodedInstruction : Obligations.StepRunsDecodedInstruction := by
  intro s i hr hc hf hd
  have hfetch := s.takeStrobe_fetch.trans (State.fetch_eq_wordAtPc hf)
  rw [step_of_running_cycle hr hc]
  exact State.runCycle_of_decoded hfetch (s.takeStrobe_config.1 ▸ hd)

/-! ### A word placed at `pc` -/

theorem State.placeWord_cycleNext (s : State) (op : Word) : (s.placeWord op).cycleNext := by
  have hfirst : ∃ rest, cycleFirst s.strobes = .cycle :: rest := by
    unfold cycleFirst
    split
    · exact ⟨_, rfl⟩
    · exact ⟨_, rfl⟩
  obtain ⟨rest, hrest⟩ := hfirst
  have htake := State.takeStrobe_cons (s := s.placeWord op) hrest
  rw [State.cycleNext, htake]

/-- The placed word stands at `pc`: its second byte does not fall on its first. -/
theorem State.wordAtPc_placeWord (s : State) (op : Word) : (s.placeWord op).wordAtPc = op := by
  have hbyte (a : Nat) : (s.placeWord op).byte a =
      ((s.setByte (s.pc.toNat % Config.memSize) (bytesOfWord op).1).setByte
        ((s.pc.toNat + 1) % Config.memSize) (bytesOfWord op).2).byte a := rfl
  have hpc : (s.placeWord op).pc = s.pc := rfl
  have hne : s.pc.toNat % Config.memSize ≠ (s.pc.toNat + 1) % Config.memSize := by
    simp only [Config.memSize]; omega
  simp only [State.wordAtPc, hpc, hbyte, State.byte_setByte, if_neg hne, if_true]
  exact wordOfBytes_bytesOfWord op

/-- Settles O7: the placed word is the one at `pc`, and it decodes to the instruction. -/
theorem placedInstructionRuns : Obligations.PlacedInstructionRuns := by
  intro s i hwf hf
  rw [State.withFetchWord, wordOfTable_toNat]
  refine stepRunsDecodedInstruction (s.placeWord (encode i)) i rfl (s.placeWord_cycleNext _) hf ?_
  rw [State.wordAtPc_placeWord]
  exact decode_encode _ hwf

/-! ### A fetch that a policy stops -/

theorem State.memRead_fault (hp : s.policy.addr = .fault) {a : Nat} (ha : Config.memSize ≤ a) :
    s.memRead a = .error (.addressOutOfRange a) := by
  have hout : ¬ a ≤ 0xFFF := by simp only [Config.memSize] at ha; omega
  simp only [State.memRead, hp, ea, if_neg hout]

/-- Under ADDR_POLICY = fault a fetch stops at its first byte when that is out of reach. -/
theorem State.fetchWord_fault_high (hp : s.policy.addr = .fault)
    (hpc : Config.memSize ≤ s.pc.toNat) :
    s.fetchWord = .error (.addressOutOfRange s.pc.toNat) := by
  rw [State.fetchWord, State.memRead_fault hp hpc]

/-- At the last address only the second byte is out of reach. -/
theorem State.fetchWord_fault_low (hp : s.policy.addr = .fault)
    (hpc : s.pc.toNat + 1 = Config.memSize) :
    s.fetchWord = .error (.addressOutOfRange Config.memSize) := by
  have hhigh := State.memRead_of_addressable (s := s) (.inr hpc.le)
  have hlow := State.memRead_fault hp hpc.ge
  rw [State.fetchWord, hhigh, hlow, hpc]

theorem step_of_fetch_fault {f : Fault} (hr : s.run = .running) (hc : s.cycleNext)
    (hf : s.fetch = .error f) : step s = .fault f := by
  rw [step_of_running_cycle hr hc]
  exact State.runCycle_of_fault (s.takeStrobe_fetch.trans hf)

/-- Settles O8: the alignment check comes first, then the first byte, then the second. -/
theorem fetchStopsByPolicy : Obligations.FetchStopsByPolicy := by
  intro s hr hc
  refine ⟨fun ho hodd => ?_, fun ho ha hpc => ?_, fun ho ha hpc => ?_⟩
  · exact step_of_fetch_fault hr hc (State.fetch_of_misaligned ho hodd)
  · exact step_of_fetch_fault hr hc
      ((State.fetch_of_aligned ho).trans (State.fetchWord_fault_high ha hpc))
  · exact step_of_fetch_fault hr hc
      ((State.fetch_of_aligned (.inl ho)).trans
        (State.fetchWord_fault_low ha (congrArg (· + 1) hpc)))

end Sys2Proof.Machine

/-! PROOFS. Data accesses: a read after a write, which instructions write memory, and when ADDR_POLICY
stops a transfer (spec/20_memory.md R60 to R63, R72; spec/43_memory_index.md R190). -/

namespace Sys2Proof.Machine

variable {s t : State} {i : Instr}

/-! ### One byte written -/

theorem State.setByte_sameBut (s : State) (a : Nat) (v : Byte) :
    SameButList [.byte a] s (s.setByte a v) := by
  intro p hp
  cases p with
  | byte b =>
    have hne : b ≠ a := by simpa using hp
    exact (s.byte_setByte a v b).trans (if_neg hne)
  | _ => rfl

/-- Settles O31: in reach, an access is at the address modulo the size of memory. -/
theorem memoryReadAfterWrite : Obligations.MemoryReadAfterWrite := by
  intro s a v ha
  refine ⟨s.setByte (a % 4096) v, State.memWrite_of_addressable v ha, s.setByte_sameBut _ v, ?_⟩
  intro b hb
  have hs : s.memRead b = .ok (s.byte (b % 4096)) := State.memRead_of_addressable hb
  have ht : (s.setByte (a % 4096) v).memRead b = .ok ((s.setByte (a % 4096) v).byte (b % 4096)) :=
    State.memRead_of_addressable hb
  rw [ht, hs, State.byte_setByte, apply_ite Except.ok]

/-! ### The instructions that write memory -/

theorem Effect.writes_mem (h : Effect s i t) : t.mem ≠ s.mem →
    ∃ x, i = .setIndexToBinaryCodedVx x ∨ i = .dumpRegisters x := by
  cases h with
  | store x bs I hi => exact fun _ => ⟨x, hi⟩
  | _ => exact absurd rfl

/-- Settles O24: of the effects only a store writes memory. -/
theorem onlyStoresChangeMemory : Obligations.OnlyStoresChangeMemory := by
  intro i s t h hi a
  have he := exec_effect h
  have hmem : t.mem = s.mem := by
    by_contra hne
    obtain ⟨x, hx⟩ := he.writes_mem hne
    exact hx.elim (hi x).1 (hi x).2
  exact State.byte_congr hmem he.config.2 a

/-! ### A transfer that ADDR_POLICY stops -/

section
variable (hp : s.policy.addr = .fault) (x y : RegIdx)
include hp

theorem execSetIndexToBinaryCodedVx_fault (h : Config.memSize < s.I.toNat + 3) :
    execSetIndexToBinaryCodedVx x s = .fault (.addressOutOfRange (max s.I.toNat Config.memSize)) := by
  have hwrite := State.writeBlock_fault (s := s.advance) hp (a := s.dataBase)
    (bs := bcdDigits (s.reg x)) h (Nat.le_add_left 1 2)
  rw [execSetIndexToBinaryCodedVx, hwrite]; rfl

theorem execDumpRegisters_fault (h : Config.memSize < s.I.toNat + (x.toNat + 1)) :
    execDumpRegisters x s = .fault (.addressOutOfRange (max s.I.toNat Config.memSize)) := by
  have hlen := s.length_regBlock x
  have hwrite := State.writeBlock_fault (s := s.advance) hp (a := s.dataBase)
    (bs := s.regBlock x) (hlen ▸ h) (by omega)
  rw [execDumpRegisters, hwrite]; rfl

theorem execLoadRegisters_fault (h : Config.memSize < s.I.toNat + (x.toNat + 1)) :
    execLoadRegisters x s = .fault (.addressOutOfRange (max s.I.toNat Config.memSize)) := by
  have hread := State.readBlock_fault hp (a := s.dataBase) h (Nat.le_add_left 1 x.toNat)
  rw [execLoadRegisters, hread]; rfl

theorem execDraw_fault {n : BitVec 4} (hn : 1 ≤ n.toNat)
    (h : Config.memSize < s.I.toNat + n.toNat) :
    execDraw x y n s = .fault (.addressOutOfRange (max s.I.toNat Config.memSize)) := by
  have hread := State.readBlock_fault hp (a := s.dataBase) h hn
  rw [execDraw, hread]; rfl

end

/-- Settles O50: each transfer stops where its block of bytes does. -/
theorem dataAddressStopsByPolicy : Obligations.DataAddressStopsByPolicy := by
  intro s x y n hp
  exact ⟨execSetIndexToBinaryCodedVx_fault hp x,
    fun h => ⟨execDumpRegisters_fault hp x h, execLoadRegisters_fault hp x h⟩,
    execDraw_fault hp x y⟩

end Sys2Proof.Machine

/-! PROOFS. The decoder and the encoder against one another, and the words the decoder rejects
(spec/30_encoding.md R93, R94, R96 to R98, R100). -/

namespace Sys2Proof

variable {op w : Word} {p : Config.LowNibblePolicy} {i : Instr} {bad : Prop}

/-! ### A word from its fields -/

theorem append_fieldNnn {k : BitVec 4} (hk : op.toNat / 4096 = k.toNat) :
    k ++ fieldNnn op = op := by
  apply BitVec.eq_of_toNat_eq
  rw [toNat_nnn, toNat_fieldNnn]
  omega

theorem append_fieldX_fieldNn {k : BitVec 4} (hk : op.toNat / 4096 = k.toNat) :
    k ++ fieldX op ++ fieldNn op = op := by
  apply BitVec.eq_of_toNat_eq
  rw [toNat_xnn, toNat_fieldX, toNat_fieldNn]
  omega

theorem append_fieldX_fieldY_fieldN {k : BitVec 4} (hk : op.toNat / 4096 = k.toNat) :
    k ++ fieldX op ++ fieldY op ++ fieldN op = op := by
  apply BitVec.eq_of_toNat_eq
  rw [toNat_xyn, toNat_fieldX, toNat_fieldY, toNat_fieldN]
  omega

/-- The low nibble left out, as in the words of 5XY0 and 9XY0. -/
theorem append_fieldX_fieldY_zero {k : BitVec 4} (hk : op.toNat / 4096 = k.toNat) :
    k ++ fieldX op ++ fieldY op ++ 0x0#4 = BitVec.ofNat 16 (op.toNat / 16 * 16) := by
  have hlt := op.isLt
  apply BitVec.eq_of_toNat_eq
  rw [toNat_xyn, toNat_fieldX, toNat_fieldY, BitVec.toNat_ofNat, BitVec.toNat_ofNat]
  omega

/-! ### What the decoder can answer -/

/-- The words of R97 that are malformed under `p`, by quotients and remainders. -/
def malformedWord (p : Config.LowNibblePolicy) (op : Word) : Prop :=
  (op.toNat / 4096 = 0x8 ∧ op.toNat % 16 ∈ [0x8, 0x9, 0xA, 0xB, 0xC, 0xD, 0xF]) ∨
  (op.toNat / 4096 = 0xE ∧ op.toNat % 256 ∉ [0x9E, 0xA1]) ∨
  (op.toNat / 4096 = 0xF ∧
    op.toNat % 256 ∉ [0x07, 0x0A, 0x15, 0x18, 0x1E, 0x29, 0x33, 0x55, 0x65]) ∨
  (p = .malformed ∧ (op.toNat / 4096 = 0x5 ∨ op.toNat / 4096 = 0x9) ∧ op.toNat % 16 ≠ 0)

/-- The word less what is no part of its instruction: the low nibble under selectors 5 and 9 (R98). -/
def canonicalWord (op : Word) : Word :=
  if op.toNat / 4096 = 5 ∨ op.toNat / 4096 = 9 then BitVec.ofNat 16 (op.toNat / 16 * 16) else op

/-- The answers of a decoder to `op` that rejects it exactly when it is `bad`, and otherwise reads a
well-formed instruction of word `w`. -/
inductive Decoded (bad : Prop) (w op : Word) : Except Machine.Error Instr → Prop
  | ok (i : Instr) (hgood : ¬ bad) (hwf : wellFormed i = true) (hi : encode i = w) :
      Decoded bad w op (.ok i)
  | error (hbad : bad) : Decoded bad w op (.error (.malformedInstruction op))

theorem Decoded.wellFormed_encode (h : Decoded bad w op (.ok i)) :
    wellFormed i = true ∧ encode i = w := by
  cases h with
  | ok _ _ hwf hi => exact ⟨hwf, hi⟩

theorem Decoded.error_iff {r : Except Machine.Error Instr} {e : Machine.Error}
    (h : Decoded bad w op r) : r = .error e ↔ e = .malformedInstruction op ∧ bad := by
  cases h with
  | ok i hgood => exact ⟨nofun, fun ⟨_, hbad⟩ => absurd hbad hgood⟩
  | error hbad => exact ⟨fun he => ⟨(Except.error.inj he).symm, hbad⟩, fun ⟨he, _⟩ => he ▸ rfl⟩

/-- The same answers, with what is rejected and the word read said in other words. -/
theorem Decoded.congr {bad' : Prop} {w' : Word} {r : Except Machine.Error Instr}
    (h : Decoded bad w op r) (hbad : bad' ↔ bad) (hw : w = w') : Decoded bad' w' op r := by
  rw [hbad, ← hw]; exact h

/-- A chain of comparisons of a word's low byte, one comparison longer. -/
theorem Decoded.ifByte {k x : BitVec 4} {f v : Byte} {n : Nat} {ns : List Nat}
    {r : Except Machine.Error Instr} (hv : v.toNat = n) (hwf : wellFormed i = true)
    (hi : encode i = k ++ x ++ v) (h : Decoded (f.toNat ∉ ns) (k ++ x ++ f) op r) :
    Decoded (f.toNat ∉ n :: ns) (k ++ x ++ f) op (if f = v then .ok i else r) := by
  split
  · next hf => exact .ok i (by simp [hf, hv]) hwf (hf ▸ hi)
  · next hf =>
    have hne : f.toNat ≠ n := fun he => hf (BitVec.eq_of_toNat_eq (he.trans hv.symm))
    exact h.congr (by simp [hne]) rfl

theorem decodeSelectorE_decoded (op : Word) :
    Decoded ((fieldNn op).toNat ∉ [0x9E, 0xA1]) (0xE#4 ++ fieldX op ++ fieldNn op) op
      (decodeSelectorE op) := by
  unfold decodeSelectorE
  exact .ifByte rfl rfl rfl <| .ifByte rfl rfl rfl <| .error List.not_mem_nil

theorem decodeSelectorF_decoded (op : Word) :
    Decoded ((fieldNn op).toNat ∉ [0x07, 0x0A, 0x15, 0x18, 0x1E, 0x29, 0x33, 0x55, 0x65])
      (0xF#4 ++ fieldX op ++ fieldNn op) op (decodeSelectorF op) := by
  unfold decodeSelectorF
  exact .ifByte rfl rfl rfl <| .ifByte rfl rfl rfl <| .ifByte rfl rfl rfl <|
    .ifByte rfl rfl rfl <| .ifByte rfl rfl rfl <| .ifByte rfl rfl rfl <|
    .ifByte rfl rfl rfl <| .ifByte rfl rfl rfl <| .ifByte rfl rfl rfl <| .error List.not_mem_nil

/-- An entry of a dispatch on a word's low nibble. -/
theorem Decoded.atNibble {k x y f : BitVec 4} {n : Nat} {ns : List Nat} (hn : f.toNat = n)
    (hns : n ∉ ns) (hwf : wellFormed i = true)
    (hi : encode i = k ++ x ++ y ++ BitVec.ofNat 4 n) :
    Decoded (f.toNat ∈ ns) (k ++ x ++ y ++ f) op (.ok i) := by
  have hf : BitVec.ofNat 4 n = f := by rw [← hn, BitVec.ofNat_toNat, BitVec.setWidth_eq]
  exact .ok i (hn ▸ hns) hwf (hf ▸ hi)

theorem decodeSelector8_decoded (op : Word) :
    Decoded ((fieldN op).toNat ∈ [0x8, 0x9, 0xA, 0xB, 0xC, 0xD, 0xF])
      (0x8#4 ++ fieldX op ++ fieldY op ++ fieldN op) op (decodeSelector8 op) := by
  have hlt := (fieldN op).isLt
  unfold decodeSelector8
  split
  case h_10 =>
    refine .error ?_
    simp only [imp_false, List.mem_cons, List.not_mem_nil] at *
    omega
  all_goals next hn => exact .atNibble hn (by decide) rfl rfl

theorem decodeLowNibble_decoded (p : Config.LowNibblePolicy) (op : Word)
    (hwf : wellFormed i = true) (hi : encode i = w) :
    Decoded (p = .malformed ∧ (fieldN op).toNat ≠ 0) w op (decodeLowNibble p op i) := by
  have hN : fieldN op = 0 ↔ (fieldN op).toNat = 0 := BitVec.toNat_eq ..
  unfold decodeLowNibble
  split
  · next h =>
    refine .ok i (fun ⟨hp, hn⟩ => ?_) hwf hi
    rcases h with h | h
    · exact hn (hN.1 h)
    · cases hp.symm.trans h
  · next h =>
    rw [not_or, hN] at h
    cases p with
    | ignore => exact absurd rfl h.2
    | malformed => exact .error ⟨rfl, h.1⟩

theorem wellFormed_incompatibleProgram_iff (nnn : Addr) :
    wellFormed (.incompatibleProgram nnn) = true ↔ nnn.toNat ≠ 0x00E0 ∧ nnn.toNat ≠ 0x00EE := by
  simp [wellFormed, BitVec.toNat_eq]

/-- Under selector 0 the field `nnn` is the whole word. -/
theorem toNat_fieldNnn_of_selector0 (hk : op.toNat / 4096 = 0) :
    (fieldNnn op).toNat = op.toNat := by
  rw [toNat_fieldNnn]
  omega

theorem decodeSelector0_wellFormed_encode (hk : op.toNat / 4096 = 0) :
    wellFormed (decodeSelector0 op) = true ∧ encode (decodeSelector0 op) = op := by
  unfold decodeSelector0
  split
  · next h => exact ⟨rfl, h.symm⟩
  · next hclear =>
    split
    · next h => exact ⟨rfl, h.symm⟩
    · next hret =>
      rw [wellFormed_incompatibleProgram_iff, toNat_fieldNnn_of_selector0 hk]
      exact ⟨⟨fun h => hclear (BitVec.eq_of_toNat_eq h), fun h => hret (BitVec.eq_of_toNat_eq h)⟩,
        append_fieldNnn hk⟩

/-- A row of a selector that rejects no word. -/
theorem Decoded.wholeWord {k : Nat} (hk : op.toNat / 4096 = k)
    (hsel : k ∉ [0x5, 0x8, 0x9, 0xE, 0xF]) (hwf : wellFormed i = true) (hi : encode i = op) :
    Decoded (malformedWord p op) (canonicalWord op) op (.ok i) := by
  simp only [List.mem_cons, List.not_mem_nil, not_or] at hsel
  refine .ok i ?_ hwf ?_
  · rintro (⟨h, -⟩ | ⟨h, -⟩ | ⟨h, -⟩ | ⟨-, h, -⟩) <;> omega
  · rw [hi, canonicalWord, if_neg (by omega)]

/-- The decoder rejects the malformed words, and what it reads encodes back. The cases are those of the
selector, that of selector k being `h_(k+1)`. -/
theorem decode_decoded (p : Config.LowNibblePolicy) (op : Word) :
    Decoded (malformedWord p op) (canonicalWord op) op (decode p op) := by
  have hlt := op.isLt
  unfold decode
  rw [toNat_fieldSelector]
  split
  case h_1 hk =>
    obtain ⟨hwf, hi⟩ := decodeSelector0_wellFormed_encode hk
    exact .wholeWord hk (by decide) hwf hi
  case h_2 hk | h_3 hk | h_11 hk | h_12 hk =>
    exact .wholeWord hk (by decide) rfl (append_fieldNnn hk)
  case h_4 hk | h_5 hk | h_7 hk | h_8 hk | h_13 hk =>
    exact .wholeWord hk (by decide) rfl (append_fieldX_fieldNn hk)
  case h_14 hk => exact .wholeWord hk (by decide) rfl (append_fieldX_fieldY_fieldN hk)
  case h_6 hk | h_10 hk =>
    refine (decodeLowNibble_decoded p op rfl rfl).congr ?_ ?_
    · simp [malformedWord, hk, toNat_fieldN]
    · rw [canonicalWord, if_pos (by omega)]
      exact append_fieldX_fieldY_zero hk
  case h_9 hk =>
    refine (decodeSelector8_decoded op).congr ?_ ?_
    · simp [malformedWord, hk, toNat_fieldN]
    · rw [canonicalWord, if_neg (by omega)]
      exact append_fieldX_fieldY_fieldN hk
  case h_15 hk =>
    refine (decodeSelectorE_decoded op).congr ?_ ?_
    · simp [malformedWord, hk, toNat_fieldNn]
    · rw [canonicalWord, if_neg (by omega)]
      exact append_fieldX_fieldNn hk
  case h_16 =>
    have hk : op.toNat / 4096 = 0xF := by
      simp only [imp_false] at *
      omega
    refine (decodeSelectorF_decoded op).congr ?_ ?_
    · simp [malformedWord, hk, toNat_fieldNn]
    · rw [canonicalWord, if_neg (by omega)]
      exact append_fieldX_fieldNn hk

/-! ### The statements -/

theorem decodeBytes_of_decode {hi lo : Byte} (h : decode p (wordOfBytes hi lo) = .ok i)
    (rest : List Byte) : decodeBytes p (hi :: lo :: rest) = .ok (i, rest) := by
  rw [decodeBytes, h]

/-- Settles O2: the fields of the encoded word are the instruction's, and the word is its two bytes. -/
theorem decodeOfEncode : Obligations.DecodeOfEncode := by
  intro p i hwf
  have hword := decode_encode p hwf
  refine ⟨hword, decodeBytes_of_decode ?_⟩
  rwa [wordOfBytes_bytesOfWord]

/-- Settles O3: in every row of the decoder the fields put together are the word again. -/
theorem decodedWordEncodesBack : Obligations.DecodedWordEncodesBack := by
  intro p op i h
  have hd := decode_decoded p op
  rw [h] at hd
  exact hd.wellFormed_encode

/-- Settles O4: the decoder has one error, and answers it in the rejecting branches of its rows. -/
theorem malformedWordsExactly : Obligations.MalformedWordsExactly :=
  fun p op _ => (decode_decoded p op).error_iff

/-- Of selector 5 or 9 it would be at least 0x5000, and the encoded word is below 0x1000. -/
theorem toNat_of_decode_incompatibleProgram {nnn : Addr}
    (h : decode p op = .ok (.incompatibleProgram nnn)) : op.toNat = nnn.toNat := by
  have hop := op.isLt
  have hnnn := nnn.isLt
  obtain ⟨-, hi⟩ := decodedWordEncodesBack p op _ h
  have hn : (encode (.incompatibleProgram nnn)).toNat = nnn.toNat := by
    rw [encode, toNat_nnn, BitVec.toNat_ofNat, Nat.zero_mod, Nat.zero_mul, Nat.zero_add]
  rw [hi] at hn
  split at hn
  · rw [BitVec.toNat_ofNat] at hn
    omega
  · exact hn

/-- Settles O5: such a word is the encoded word of its instruction, and the decoder undoes the encoder. -/
theorem incompatibleWordsExactly : Obligations.IncompatibleWordsExactly := by
  intro p op
  constructor
  · rintro ⟨nnn, h⟩
    have hn := toNat_of_decode_incompatibleProgram h
    have hnnn := nnn.isLt
    obtain ⟨hwf, -⟩ := decodedWordEncodesBack p op _ h
    rw [wellFormed_incompatibleProgram_iff, ← hn] at hwf
    exact ⟨by omega, hwf⟩
  · rintro ⟨hk, hne⟩
    have hop : encode (.incompatibleProgram (fieldNnn op)) = op := append_fieldNnn hk
    have hwf : wellFormed (.incompatibleProgram (fieldNnn op)) = true := by
      rwa [wellFormed_incompatibleProgram_iff, toNat_fieldNnn_of_selector0 hk]
    have hdec := decode_encode p hwf
    rw [hop] at hdec
    exact ⟨_, hdec⟩

/-- Settles O1: the decoder evaluated at each word. -/
theorem specWordsDecode : Obligations.SpecWordsDecode := by
  unfold Obligations.SpecWordsDecode
  decide

end Sys2Proof

/-! PROOFS. How a cycle ends: it is never refused, an error leaves nothing else behind, and only a redraw
publishes a frame (spec/40_cycle.md R120 to R128; spec/60_exceptions.md R266, R268). -/

namespace Sys2Proof.Machine

variable {s t : State} {i : Instr}

/-! ### A cycle in Halted -/

theorem State.reportHalt_sameBut (s : State) (e : Error) :
    SameButList [.status, .frame] s (s.reportHalt e) := by
  intro p hp
  cases p with
  | status | frame => simp at hp
  | _ => rfl

/-- Settles O10: the cycle is `State.reportHalt` on the state in which the strobe is taken. -/
theorem haltedCycleReportsAgain : Obligations.HaltedCycleReportsAgain := by
  intro s e hr hc
  have hstep : step s = .next (s.takeStrobe.2.reportHalt e) := by
    rw [step_of_cycle hc, State.cycle_of_halted (s.takeStrobe_run.trans hr)]
  exact ⟨_, hstep, rfl, rfl, State.reportHalt_sameBut _ e⟩

/-! ### No step is refused -/

theorem ofAccess_ne_refused (a : Except Fault State) (r : Refusal) : ofAccess a ≠ .refused r := by
  cases a <;> exact nofun

theorem ofTrap_ne_refused (s : State) (a : Except Error State) (r : Refusal) :
    ofTrap s a ≠ .refused r := by
  cases a <;> exact nofun

theorem exec_ne_refused (i : Instr) (s : State) (r : Refusal) : exec i s ≠ .refused r := by
  cases i with
  | ret | call => exact ofTrap_ne_refused _ _ r
  | draw | setIndexToBinaryCodedVx | dumpRegisters | loadRegisters =>
    exact ofAccess_ne_refused _ r
  | awaitKeyInput x => rw [exec, execAwaitKeyInput]; cases s.key <;> exact nofun
  | _ => exact nofun

theorem State.cycle_ne_refused (s : State) (r : Refusal) : s.cycle ≠ .refused r := by
  cases hr : s.run with
  | halted e => rw [State.cycle_of_halted hr]; exact nofun
  | running =>
    rw [State.cycle_of_running hr]
    cases hf : s.fetch with
    | error f => rw [State.runCycle_of_fault hf]; exact nofun
    | ok op =>
      cases hd : decode s.policy.lowNibble op with
      | error e => rw [State.runCycle_of_malformed hf hd]; exact nofun
      | ok i => rw [State.runCycle_of_decoded hf hd]; exact exec_ne_refused i s r

theorem step_ne_refused (s : State) (r : Refusal) : step s ≠ .refused r := by
  rw [step_eq]
  cases s.takeStrobe.1 with
  | cycle => exact State.cycle_ne_refused _ r
  | tick | keyIn | reset => exact nofun

/-- Settles O19: no arm of `exec` refuses, and under mask and fetch nothing faults. -/
theorem everyStepCompletesByDefault : Obligations.EveryStepCompletesByDefault :=
  ⟨step_ne_refused, fun _ => step_completes⟩

/-! ### Error entry -/

theorem State.raise_sameBut (s : State) (e : Error) :
    SameButList [.run, .status, .frame] s (s.raise e) := by
  intro p hp
  cases p with
  | run | status | frame => simp at hp
  | _ => rfl

/-- An instruction changes the run state only by raising an error. -/
theorem Effect.raises_of_run_ne (h : Effect s i t) : t.run ≠ s.run →
    ∃ e, (e = .incompatibleProgram ∨ e = .stackOverflow ∨ e = .stackUnderflow) ∧ t = s.raise e := by
  cases h with
  | raise e _ he => exact fun _ => ⟨e, he, rfl⟩
  | _ => exact absurd rfl

/-- Settles O21: of the effects only `raise` halts, and it starts from the state of the cycle's start. -/
theorem errorsArePrecise : Obligations.ErrorsArePrecise := by
  intro i s t hr h hne
  obtain ⟨e, he, rfl⟩ := (exec_effect h).raises_of_run_ne (hr ▸ hne)
  exact ⟨e, he, rfl, rfl, rfl, s.raise_sameBut e⟩

/-! ### The frame published -/

theorem Effect.redraws_or_keeps_display (h : Effect s i t) :
    (redraws i ∧ t.frame = some t.disp ∧ t.status = .ok true) ∨
    (¬ redraws i ∧ t.disp = s.disp ∧ t.frame = none ∧ t.status ≠ .ok true) := by
  cases h with
  | registers _ _ hi | goTo _ hi | raise _ hi => exact .inr ⟨hi, rfl, rfl, nofun⟩
  | push _ hi | pop _ _ hi | delay _ hi | sound _ hi | load _ _ _ hi | stall _ hi =>
    exact .inr ⟨hi ▸ id, rfl, rfl, nofun⟩
  | index _ hi =>
    obtain ⟨nnn, rfl⟩ | ⟨x, rfl | rfl⟩ := hi <;> exact .inr ⟨id, rfl, rfl, nofun⟩
  | store _ _ _ hi => obtain rfl | rfl := hi <;> exact .inr ⟨id, rfl, rfl, nofun⟩
  | clear hi => exact .inl ⟨hi ▸ trivial, rfl, rfl⟩
  | draw _ _ _ _ _ hi => exact .inl ⟨hi ▸ trivial, rfl, rfl⟩

/-- Settles O22: the two effects that publish are those of Clear and Draw, and the others keep the
display. -/
theorem onlyClearAndDrawRedraw : Obligations.OnlyClearAndDrawRedraw := by
  intro i s t h
  rcases (exec_effect h).redraws_or_keeps_display with ⟨hi, hpub⟩ | ⟨hi, hkeep⟩
  · exact ⟨fun _ => hpub, absurd hi⟩
  · exact ⟨fun h' => absurd h' hi, fun _ => hkeep⟩

end Sys2Proof.Machine

/-! PROOFS. Control flow: jumps, the skips on register values, Call and Return, and a jump to itself
(spec/41_control_flow.md; spec/10_state.md R25; spec/60_exceptions.md R284). -/

namespace Sys2Proof.Machine

variable {s t : State} {i : Instr}

/-! ### Zero-extension -/

@[simp] theorem toNat_zextAddr (nnn : Addr) : (zextAddr nnn).toNat = nnn.toNat :=
  BitVec.toNat_setWidth_of_le (by decide)

@[simp] theorem toNat_zextByte (b : Byte) : (zextByte b).toNat = b.toNat :=
  BitVec.toNat_setWidth_of_le (by decide)

/-- An address and an offset byte are too small for their sum to wrap at 16 bits. -/
theorem toNat_zextAddr_add_zextByte (nnn : Addr) (b : Byte) :
    (zextAddr nnn + zextByte b).toNat = nnn.toNat + b.toNat := by
  have hn := nnn.isLt
  have hb := b.isLt
  rw [BitVec.toNat_add, toNat_zextAddr, toNat_zextByte, Nat.mod_eq_of_lt (by omega)]

/-! ### Jumps -/

/-- The end of a cycle whose only effect is on `pc`. -/
theorem State.goTo_endsCycle (s : State) (pc : Word) :
    { s.advance with pc := pc }.status = .ok false ∧ { s.advance with pc := pc }.frame = none ∧
      SameButList [.pc, .status, .frame] s { s.advance with pc := pc } := by
  refine ⟨rfl, rfl, fun p hp => ?_⟩
  cases p with
  | pc | status | frame => simp at hp
  | _ => rfl

/-- Settles O33: the zero-extended address has the value of the field. -/
theorem jumpSetsPc : Obligations.JumpSetsPc := fun s nnn =>
  ⟨{ s.advance with pc := zextAddr nnn }, rfl, toNat_zextAddr nnn, s.goTo_endsCycle _⟩

/-- Settles O34: the sum does not wrap. -/
theorem jumpWithPcOffsetAddsV0 : Obligations.JumpWithPcOffsetAddsV0 := fun s nnn =>
  ⟨{ s.advance with pc := zextAddr nnn + zextByte (s.reg 0) }, rfl,
    toNat_zextAddr_add_zextByte nnn (s.reg 0), s.goTo_endsCycle _⟩

/-! ### Skips -/

/-- The default advance and the skip together. -/
theorem State.skipIf_advance_pc (s : State) (c : Bool) :
    (s.advance.skipIf c).pc = s.pc + if c then 4 else 2 := by
  cases c with
  | false => rfl
  | true => exact BitVec.add_assoc s.pc 2 2

theorem State.skipIf_endsCycle (s : State) (c : Bool) :
    (s.advance.skipIf c).status = .ok false ∧ (s.advance.skipIf c).frame = none ∧
      SameButList [.pc, .status, .frame] s (s.advance.skipIf c) := by
  rw [State.skipIf_eq]
  exact s.goTo_endsCycle _

/-- The skip on equal values, as R145 and R147 have it. -/
theorem State.skipIf_beq_pc (s : State) (a b : Byte) :
    (s.advance.skipIf (a == b)).pc = s.pc + if a = b then 4 else 2 := by
  simp only [State.skipIf_advance_pc, beq_iff_eq]

/-- The skip on different values, as R146 and R148 have it. -/
theorem State.skipIf_bne_pc (s : State) (a b : Byte) :
    (s.advance.skipIf (a != b)).pc = s.pc + if a = b then 2 else 4 := by
  simp only [State.skipIf_advance_pc, bne_iff_ne, ite_not]

/-- Settles O38: each of the four is a skip on equal or on different values. -/
theorem registerSkips : Obligations.RegisterSkips := fun s x y nn =>
  ⟨⟨_, rfl, s.skipIf_beq_pc (s.reg x) nn, s.skipIf_endsCycle _⟩,
    ⟨_, rfl, s.skipIf_bne_pc (s.reg x) nn, s.skipIf_endsCycle _⟩,
    ⟨_, rfl, s.skipIf_beq_pc (s.reg x) (s.reg y), s.skipIf_endsCycle _⟩,
    ⟨_, rfl, s.skipIf_bne_pc (s.reg x) (s.reg y), s.skipIf_endsCycle _⟩⟩

/-! ### Call and Return -/

theorem State.push_of_room (h : s.stack.length < s.params.stackDepth) (v : Word) :
    s.push v = .ok { s with stack := s.stack ++ [v] } := if_neg (by omega)

theorem State.push_of_full (h : s.params.stackDepth ≤ s.stack.length) (v : Word) :
    s.push v = .error .stackOverflow := if_pos h

theorem State.pop_of_concat {l : List Word} {v : Word} (h : s.stack = l ++ [v]) :
    s.pop = .ok (v, { s with stack := l }) := by
  simp [State.pop, h]

theorem State.pop_of_nil (h : s.stack = []) : s.pop = .error .stackUnderflow := by
  simp [State.pop, h]

/-- With room on the stack, Call pushes the advanced `pc` and jumps. -/
theorem exec_call_of_room (h : s.stack.length < s.params.stackDepth) (nnn : Addr) :
    exec (.call nnn) s =
      .next { s.advance with pc := zextAddr nnn, stack := s.stack ++ [s.pc + 2] } := by
  have hp := State.push_of_room (s := s.advance) h s.advance.pc
  rw [exec, execCall, hp]
  rfl

theorem exec_call_of_full (h : s.params.stackDepth ≤ s.stack.length) (nnn : Addr) :
    exec (.call nnn) s = .next (s.raise .stackOverflow) := by
  have hp := State.push_of_full (s := s.advance) h s.advance.pc
  rw [exec, execCall, hp]
  rfl

/-- With an entry on the stack, Return takes the last one off into `pc`. -/
theorem exec_ret_of_concat {l : List Word} {v : Word} (h : s.stack = l ++ [v]) :
    exec .ret s = .next { s.advance with pc := v, stack := l } := by
  have hp := State.pop_of_concat (s := s.advance) h
  rw [exec, execReturn, hp]
  rfl

theorem exec_ret_of_nil (h : s.stack = []) : exec .ret s = .next (s.raise .stackUnderflow) := by
  have hp := State.pop_of_nil (s := s.advance) h
  rw [exec, execReturn, hp]
  rfl

/-- A cycle that sets `pc` and the stack leaves every other piece of state. -/
theorem State.goTo_stack_sameBut (s : State) (pc : Word) (l : List Word) :
    SameButList [.stack, .pc, .status, .frame] s { s.advance with pc := pc, stack := l } := by
  intro p hp
  cases p with
  | stack | pc | status | frame => simp at hp
  | _ => rfl

/-- Settles O35: by whether there is room on the stack. -/
theorem callPushesOrOverflows : Obligations.CallPushesOrOverflows := fun s nnn =>
  ⟨fun hroom => ⟨_, exec_call_of_room hroom nnn, rfl, toNat_zextAddr nnn, rfl, rfl,
      s.goTo_stack_sameBut _ _⟩,
    fun hfull => ⟨_, exec_call_of_full hfull.ge nnn, rfl, rfl, rfl, s.raise_sameBut _⟩⟩

/-- Settles O36: by whether there is an entry on the stack. -/
theorem returnPopsOrUnderflows : Obligations.ReturnPopsOrUnderflows := fun s =>
  ⟨fun _ _ hs => ⟨_, exec_ret_of_concat hs, rfl, rfl, rfl, rfl, s.goTo_stack_sameBut _ _⟩,
    fun hnil => ⟨_, exec_ret_of_nil hnil, rfl, rfl, rfl, s.raise_sameBut _⟩⟩

/-- Settles O37: the Call did not overflow, since it left the machine Running, and so the Return finds the
pushed entry last. -/
theorem returnUndoesCall : Obligations.ReturnUndoesCall := by
  intro s t u nnn _ hcall hrun hstack
  rcases Nat.lt_or_ge s.stack.length s.params.stackDepth with hroom | hfull
  · obtain rfl := Host.Outcome.next.inj ((exec_call_of_room hroom nnn).symm.trans hcall)
    exact ⟨_, exec_ret_of_concat hstack, rfl, rfl⟩
  · obtain rfl := Host.Outcome.next.inj ((exec_call_of_full hfull nnn).symm.trans hcall)
    cases hrun

/-- An instruction keeps the stack, is a Call that pushes one entry, or is a Return that pops one. -/
theorem Effect.stack (h : Effect s i t) :
    t.stack = s.stack ∨
    (∃ nnn, i = .call nnn ∧ t.stack = s.stack ++ [s.pc + 2]) ∨
    (i = .ret ∧ ∃ v, s.stack = t.stack ++ [v]) := by
  cases h with
  | push nnn hi => exact .inr (.inl ⟨nnn, hi, rfl⟩)
  | pop l v hi hs => exact .inr (.inr ⟨hi, v, hs⟩)
  | _ => exact .inl rfl

/-- Settles O23: of the effects only two write the stack. -/
theorem onlyCallAndReturnChangeStack : Obligations.OnlyCallAndReturnChangeStack := by
  intro i s t h
  rcases (exec_effect h).stack with hsame | ⟨nnn, rfl, hpush⟩ | ⟨rfl, hpop⟩
  · exact ⟨fun _ _ => hsame, fun _ => .inl hsame, fun _ => .inl hsame⟩
  · exact ⟨fun hi => absurd rfl (hi nnn), fun _ => .inr ⟨_, hpush⟩, nofun⟩
  · exact ⟨fun _ hi => absurd rfl hi, nofun, fun _ => .inr hpop⟩

/-! ### A jump to itself -/

/-- The word at `pc` is read from `pc`, memory and ADDR_POLICY alone. -/
theorem State.fetchWord_congr (hpc : t.pc = s.pc) (hpol : t.policy = s.policy)
    (hbyte : ∀ a, t.byte a = s.byte a) : t.fetchWord = s.fetchWord := by
  have hread (a : Nat) : t.memRead a = s.memRead a := by
    simp only [State.memRead, hpol, hbyte]
  simp only [State.fetchWord, hread, hpc]

theorem State.ended_congr (hrun : t.run = s.run) (hpc : t.pc = s.pc) (hpol : t.policy = s.policy)
    (hbyte : ∀ a, t.byte a = s.byte a) (h : s.ended) : t.ended := by
  obtain ⟨hr, nnn, ⟨op, hf, hd⟩, hself⟩ := h
  exact ⟨hrun.trans hr, nnn, ⟨op, (State.fetchWord_congr hpc hpol hbyte).trans hf, hpol ▸ hd⟩,
    hself.trans hpc.symm⟩

/-- A cycle of a jump to itself changes the outputs alone. -/
theorem State.cycle_of_ended (h : s.ended) (ho : s.policy.oddPc = .fetch ∨ s.pc.toNat % 2 = 0) :
    s.cycle = .next { s with status := .ok false, frame := none } := by
  obtain ⟨hr, nnn, ⟨op, hf, hd⟩, hself⟩ := h
  rw [State.cycle_of_running hr, State.runCycle_of_decoded ((State.fetch_of_aligned ho).trans hf) hd,
    exec, execJump, hself]
  rfl

theorem State.outputs_sameBut (s : State) (st : Status) (f : Option Display) :
    SameButList [.status, .frame] s { s with status := st, frame := f } := by
  intro p hp
  cases p with
  | status | frame => simp at hp
  | _ => rfl

/-- Settles O29: being ended depends on nothing that taking the strobe or the jump to itself changes. -/
theorem endedStateStaysEnded : Obligations.EndedStateStaysEnded := by
  intro s h hc
  refine ⟨fun ho => ?_, fun ho hodd =>
    step_of_fetch_fault h.1 hc (State.fetch_of_misaligned ho hodd)⟩
  obtain ⟨l, n, htake⟩ := s.takeStrobe_eq
  have h' : State.ended { s with strobes := l, choices := n } :=
    State.ended_congr rfl rfl rfl (fun _ => rfl) h
  rw [step_of_cycle hc, htake, State.cycle_of_ended h' ho]
  exact ⟨_, rfl, State.outputs_sameBut _ _ _, State.ended_congr rfl rfl rfl (fun _ => rfl) h'⟩

end Sys2Proof.Machine

/-! PROOFS. Arithmetic, bitwise, immediate and copy instructions (spec/42_arithmetic.md). -/

namespace Sys2Proof.Machine

/-! ### Instructions without a flag -/

/-- The end of a cycle whose only effect is on `V[x]`. -/
theorem State.setReg_endsCycle (s : State) (x : RegIdx) (v : Byte) :
    Advanced s (s.advance.setReg x v) ∧
      SameButList [.reg x, .pc, .status, .frame] s (s.advance.setReg x v) := by
  refine ⟨⟨rfl, rfl, rfl⟩, fun p hp => ?_⟩
  cases p with
  | pc | status | frame => simp at hp
  | reg r =>
    have hr : r ≠ x := by simpa using hp
    simp [Piece.same, hr]
  | _ => rfl

theorem State.reg_setReg_self (s : State) (x : RegIdx) (v : Byte) : (s.setReg x v).reg x = v := by
  simp

/-- Settles O40: each writes `V[x]` with its operation on the two bytes, bit by bit that on the bits. -/
theorem bitwiseInstructions : Obligations.BitwiseInstructions := fun s x y =>
  ⟨⟨_, rfl, fun k => by rw [State.reg_setReg_self, BitVec.getLsbD_or], s.setReg_endsCycle x _⟩,
    ⟨_, rfl, fun k => by rw [State.reg_setReg_self, BitVec.getLsbD_and], s.setReg_endsCycle x _⟩,
    ⟨_, rfl, fun k => by rw [State.reg_setReg_self, BitVec.getLsbD_xor], s.setReg_endsCycle x _⟩⟩

/-- Settles O39: each writes one byte to `V[x]`, the wrapping sum for AddImmediate. -/
theorem immediateAndCopy : Obligations.ImmediateAndCopy := fun s x y nn =>
  ⟨⟨_, rfl, State.reg_setReg_self _ x nn, s.setReg_endsCycle x _⟩,
    ⟨_, rfl, by rw [State.reg_setReg_self, BitVec.toNat_add], s.setReg_endsCycle x _⟩,
    ⟨_, rfl, State.reg_setReg_self _ x _, s.setReg_endsCycle x _⟩⟩

/-! ### Writing result and flag -/

/-- A register that is neither the destination nor `VF` is left alone. -/
theorem State.reg_setResultFlag_of_ne (s : State) {x q : RegIdx} (hx : q ≠ x) (hF : q ≠ regF)
    (r f al : Byte) : (s.setResultFlag x r f al).reg q = s.reg q := by
  by_cases h : x = regF
  · subst h
    rw [State.setResultFlag_regF]
    split <;> simp only [State.reg_setReg, if_neg hF]
    exact State.reg_congr rfl q
  · rw [State.setResultFlag_of_ne s h, State.reg_setReg, if_neg hF, State.reg_setReg, if_neg hx]

/-- A destination other than `VF` takes the result. -/
theorem State.reg_setResultFlag_self (s : State) {x : RegIdx} (hx : x ≠ regF) (r f al : Byte) :
    (s.setResultFlag x r f al).reg x = r := by
  rw [State.setResultFlag_of_ne s hx, State.reg_setReg, if_neg hx, State.reg_setReg_self]

/-- `set_result_flag` of R161, by whether the destination is `VF` and then by VF_ALIAS_POLICY. -/
theorem State.setResultFlag_setsResultAndFlag (s : State) (x : RegIdx) (r f al : Byte) :
    SetsResultAndFlag s (s.advance.setResultFlag x r f al) x r f al := by
  refine ⟨fun hx => ?_, fun hx => ?_⟩
  · refine ⟨State.reg_setResultFlag_self _ hx r f al, ?_⟩
    rw [State.setResultFlag_of_ne _ hx]
    exact ⟨State.reg_setReg_self _ _ f, rfl⟩
  · subst hx
    rw [State.setResultFlag_regF, State.advance_policy]
    cases s.policy.vfAlias <;> exact ⟨State.reg_setReg_self _ _ _, rfl⟩

/-- The end of a cycle that writes result and flag: besides them only a free choice can be taken. -/
theorem State.setResultFlag_endsCycle (s : State) (x : RegIdx) (r f al : Byte) :
    Advanced s (s.advance.setResultFlag x r f al) ∧
      SameButList [.reg x, .reg 0xF, .pc, .status, .frame, .choices] s
        (s.advance.setResultFlag x r f al) := by
  have hreg (q : RegIdx) : q ≠ x → q ≠ regF → (s.advance.setResultFlag x r f al).reg q = s.reg q :=
    fun hx hF => State.reg_setResultFlag_of_ne _ hx hF r f al
  obtain ⟨V, n, he⟩ := s.advance.setResultFlag_eq x r f al
  rw [he] at hreg ⊢
  refine ⟨⟨rfl, rfl, rfl⟩, fun p hp => ?_⟩
  cases p with
  | pc | status | frame | choices => simp at hp
  | reg q =>
    have hq : q ≠ x ∧ q ≠ regF := by simpa using hp
    exact hreg q hq.1 hq.2
  | _ => rfl

/-- What a flag instruction leaves when it computes `r`, `f` and `al`, the values the spec gives being
`r'`, `f'` and `al'`. -/
theorem exec_setsResultAndFlag {s : State} {i : Instr} {x : RegIdx} {r f al r' f' al' : Byte}
    (he : exec i s = .next (s.advance.setResultFlag x r f al)) (hr : r = r') (hf : f = f')
    (hal : al = al') :
    ∃ t, exec i s = .next t ∧ SetsResultAndFlag s t x r' f' al' ∧ Advanced s t ∧
      SameButList [.reg x, .reg 0xF, .pc, .status, .frame, .choices] s t := by
  subst hr hf hal
  exact ⟨_, he, s.setResultFlag_setsResultAndFlag x r f al, s.setResultFlag_endsCycle x r f al⟩

/-! ### Results and flags as natural numbers -/

theorem add_eq_ofNat (a b : Byte) : a + b = BitVec.ofNat 8 ((a.toNat + b.toNat) % 256) := by
  apply BitVec.eq_of_toNat_eq; simp

/-- The wrapping difference, 256 added before the subtraction as R163 and R164 have it. -/
theorem sub_eq_ofNat (a b : Byte) : a - b = BitVec.ofNat 8 ((a.toNat + 256 - b.toNat) % 256) := by
  bv_omega

theorem shiftRight_one_eq_ofNat (a : Byte) : a >>> 1 = BitVec.ofNat 8 (a.toNat / 2) := by
  bv_omega

theorem shiftLeft_one_eq_ofNat (a : Byte) : a <<< 1 = BitVec.ofNat 8 (2 * a.toNat % 256) := by
  bv_omega

theorem flagByte_decide (p : Prop) [Decidable p] : flagByte (decide p) = if p then 1 else 0 := by
  simp [flagByte]

theorem carryFlag_eq (a b : Byte) :
    carryFlag a b = if 255 < a.toNat + b.toNat then 1 else 0 := flagByte_decide _

theorem noBorrowFlag_eq (a b : Byte) :
    noBorrowFlag a b = if b.toNat ≤ a.toNat then 1 else 0 := flagByte_decide _

theorem toNat_lsbFlag (a : Byte) : (lsbFlag a).toNat = a.toNat % 2 := by
  rw [lsbFlag, BitVec.toNat_and]
  exact Nat.and_one_is_mod a.toNat

/-- A byte shifted right by seven is at most 1, so the mask of R166 keeps it. -/
theorem toNat_msbFlag (a : Byte) : (msbFlag a).toNat = a.toNat / 128 := by
  have hlt : a.toNat / 128 < 2 := Nat.div_lt_of_lt_mul a.isLt
  calc (msbFlag a).toNat = a.toNat / 128 % 2 := by
        rw [msbFlag, BitVec.toNat_and, BitVec.toNat_ushiftRight, Nat.shiftRight_eq_div_pow]
        exact Nat.and_one_is_mod _
    _ = a.toNat / 128 := Nat.mod_eq_of_lt hlt

theorem lsbFlag_eq (a : Byte) : lsbFlag a = BitVec.ofNat 8 (a.toNat % 2) := by
  rw [← toNat_lsbFlag, BitVec.ofNat_toNat, BitVec.setWidth_eq]

theorem msbFlag_eq (a : Byte) : msbFlag a = BitVec.ofNat 8 (a.toNat / 128) := by
  rw [← toNat_msbFlag, BitVec.ofNat_toNat, BitVec.setWidth_eq]

/-- The bit RightShift shifts out is at most 1, so the `alias_text` of R165 is 0. -/
theorem lsbFlag_shiftRight_one (a : Byte) : lsbFlag a >>> 1 = 0 := by
  have hbit := toNat_lsbFlag a
  bv_omega

/-- The `alias_text` of R166. -/
theorem msbFlag_shiftLeft_one (a : Byte) :
    msbFlag a <<< 1 = BitVec.ofNat 8 (2 * (a.toNat / 128)) := by
  rw [shiftLeft_one_eq_ofNat, toNat_msbFlag, Nat.mod_eq_of_lt (by omega)]

/-! ### Instructions with a flag -/

/-- Settles O41: the wrapping sum, and the carry. -/
theorem addSetsCarry : Obligations.AddSetsCarry := fun s x y =>
  have hf := carryFlag_eq (s.reg x) (s.reg y)
  exec_setsResultAndFlag rfl (add_eq_ofNat _ _) hf hf

/-- Settles O42: the wrapping difference, and the not-borrow of `V[x] - V[y]`. -/
theorem subtractSetsNoBorrow : Obligations.SubtractSetsNoBorrow := fun s x y =>
  have hf := noBorrowFlag_eq (s.reg x) (s.reg y)
  exec_setsResultAndFlag rfl (sub_eq_ofNat _ _) hf hf

/-- Settles O43: as Subtract, with the operands exchanged. -/
theorem reverseSubtractSetsNoBorrow : Obligations.ReverseSubtractSetsNoBorrow := fun s x y =>
  have hf := noBorrowFlag_eq (s.reg y) (s.reg x)
  exec_setsResultAndFlag rfl (sub_eq_ofNat _ _) hf hf

/-- Settles O44: shifts by one halve and double, and their flags are the lowest and the highest bit. -/
theorem shiftsSetBitShiftedOut : Obligations.ShiftsSetBitShiftedOut := fun _ _ _ =>
  ⟨exec_setsResultAndFlag rfl (shiftRight_one_eq_ofNat _) (lsbFlag_eq _) (lsbFlag_shiftRight_one _),
    exec_setsResultAndFlag rfl (shiftLeft_one_eq_ofNat _) (msbFlag_eq _) (msbFlag_shiftLeft_one _)⟩

/-- Settles O45: Add keeps `V[y]`, so Subtract takes from the sum what Add added. -/
theorem subtractUndoesAdd : Obligations.SubtractUndoesAdd := by
  intro s t u x y hx hyF hyx hadd hsub
  have hsum : t.reg x = s.reg x + s.reg y := by
    rw [← Host.Outcome.next.inj hadd, State.reg_setResultFlag_self _ hx]
  have hkept : t.reg y = s.reg y := by
    rw [← Host.Outcome.next.inj hadd, State.reg_setResultFlag_of_ne _ hyx hyF, State.reg_advance]
  calc u.reg x = t.reg x - t.reg y := by
        rw [← Host.Outcome.next.inj hsub, State.reg_setResultFlag_self _ hx]
    _ = s.reg x + s.reg y - s.reg y := by rw [hsum, hkept]
    _ = s.reg x := BitVec.add_sub_cancel _ _

end Sys2Proof.Machine

/-! PROOFS. The index register, and the transfers between registers and memory that complete
(spec/43_memory_index.md R191 to R197). -/

namespace Sys2Proof.Machine

variable {s t : State}

/-! ### Instructions that set the index register -/

/-- The end of a cycle whose only effect is on `I`. -/
theorem State.setI_endsCycle (s : State) (v : Word) :
    Advanced s { s.advance with I := v } ∧
      SameButList [.I, .pc, .status, .frame] s { s.advance with I := v } := by
  refine ⟨⟨rfl, rfl, rfl⟩, fun p hp => ?_⟩
  cases p with
  | I | pc | status | frame => simp at hp
  | _ => rfl

theorem toNat_lowNibble (v : Byte) : (v &&& 0x0F).toNat = v.toNat % 16 := by
  rw [BitVec.toNat_and]
  exact Nat.and_two_pow_sub_one_eq_mod v.toNat 4

/-- With the font in memory no glyph's address wraps at 16 bits. -/
theorem toNat_glyphAddress {p : Config.Params} (h : p.wf = true) (v : Byte) :
    (glyphAddress p v).toNat = p.fontBase + p.glyphSize * (v.toNat % 16) := by
  obtain ⟨-, -, -, hfont, -⟩ := (Config.Params.wf_iff p).1 h
  have hglyph : p.glyphSize * (v.toNat % 16) ≤ p.glyphSize * 16 :=
    Nat.mul_le_mul_left _ (Nat.mod_lt _ (by decide)).le
  simp only [Config.Params.fontSize, Config.glyphCount, Config.memSize] at hfont
  rw [glyphAddress, BitVec.toNat_ofNat, toNat_lowNibble]
  exact Nat.mod_eq_of_lt (by omega)

/-- Settles O46: each sets `I`, to the address, to the wrapping sum, or to the glyph's address. -/
theorem indexInstructions : Obligations.IndexInstructions := fun s nnn x =>
  ⟨⟨_, rfl, toNat_zextAddr nnn, s.setI_endsCycle _⟩,
    ⟨_, rfl, by rw [BitVec.toNat_add, toNat_zextByte], s.setI_endsCycle _⟩,
    ⟨_, rfl, fun hp => toNat_glyphAddress hp (s.reg x), s.setI_endsCycle _⟩⟩

/-! ### A block stored, a block loaded -/

/-- The end of a cycle that stores the bytes from `I` on. -/
def State.storeBlock (s : State) (bs : List Byte) : State :=
  { s.advance with mem := s.mem.writeBytes s.params s.I.toNat bs }

/-- The end of a cycle that loads `V0` to `V[x]` from `I` on. -/
def State.loadBlock (s : State) (x : RegIdx) : State :=
  s.advance.setRegBlock 0 (s.bytesAt s.I.toNat (x.toNat + 1))

theorem State.advance_writeBlock_of_addressable {bs : List Byte}
    (h : s.addressable s.I.toNat bs.length) :
    s.advance.writeBlock s.dataBase bs = .ok (s.storeBlock bs) :=
  State.writeBlock_of_addressable (s := s.advance) h

theorem State.storeBlock_advanced (s : State) (bs : List Byte) : Advanced s (s.storeBlock bs) :=
  ⟨rfl, rfl, rfl⟩

theorem State.storeBlock_byte (s : State) {bs : List Byte} (hl : bs.length ≤ Config.memSize)
    (i : Nat) (hi : i < bs.length) : (s.storeBlock bs).byte ((s.I.toNat + i) % 4096) = bs[i] :=
  Memory.read_writeBytes s.params s.mem s.I.toNat bs hl i hi

theorem State.storeBlock_sameBut (s : State) (bs : List Byte) :
    SameBut (fun p => p ∈ [Piece.pc, .status, .frame] ∨
      ∃ j < bs.length, p = .byte ((s.I.toNat + j) % 4096)) s (s.storeBlock bs) := by
  intro p hp
  cases p with
  | pc | status | frame => simp at hp
  | byte b =>
    exact Memory.read_writeBytes_of_not s.params s.mem s.I.toNat bs b fun j hj hb =>
      hp (.inr ⟨j, hj, congrArg Piece.byte hb⟩)
  | _ => rfl

theorem State.loadBlock_eq (s : State) (x : RegIdx) :
    s.loadBlock x = { s.advance with V := (s.loadBlock x).V } :=
  State.setRegBlock_eq ..

theorem State.loadBlock_advanced (s : State) (x : RegIdx) : Advanced s (s.loadBlock x) := by
  rw [State.loadBlock_eq]; exact ⟨rfl, rfl, rfl⟩

@[simp] theorem State.loadBlock_I (s : State) (x : RegIdx) : (s.loadBlock x).I = s.I := by
  rw [State.loadBlock_eq]; rfl

@[simp] theorem State.loadBlock_policy (s : State) (x : RegIdx) :
    (s.loadBlock x).policy = s.policy := by
  rw [State.loadBlock_eq]; rfl

theorem State.loadBlock_reg (s : State) (x r : RegIdx) :
    (s.loadBlock x).reg r =
      if r.toNat ≤ x.toNat then s.byte ((s.I.toNat + r.toNat) % 4096) else s.reg r := by
  have hx := x.isLt
  rw [State.loadBlock, State.reg_setRegBlock _ _ _ (by rw [State.length_bytesAt]; omega)]
  simp

theorem State.loadBlock_sameBut (s : State) (x : RegIdx) :
    SameBut (fun p => p ∈ [Piece.pc, .status, .frame] ∨
      ∃ r : RegIdx, r.toNat ≤ x.toNat ∧ p = .reg r) s (s.loadBlock x) := by
  intro p hp
  cases p with
  | pc | status | frame => simp at hp
  | reg r => exact (s.loadBlock_reg x r).trans (if_neg fun hr => hp (.inr ⟨r, hr, rfl⟩))
  | _ => rw [State.loadBlock_eq]; rfl

/-! ### The index step after a transfer -/

@[simp] theorem State.reg_stepIndex (s : State) (x r : RegIdx) :
    (s.stepIndex x).reg r = s.reg r := by
  rw [State.stepIndex_only_I]; rfl

@[simp] theorem State.byte_stepIndex (s : State) (x : RegIdx) (a : Nat) :
    (s.stepIndex x).byte a = s.byte a := by
  rw [State.stepIndex_only_I]; rfl

theorem State.stepIndex_I_of_unchanged (h : s.policy.loadStoreI = .unchanged) (x : RegIdx) :
    (s.stepIndex x).I = s.I := by
  rw [State.stepIndex_eq, h]

theorem State.stepIndex_I_of_xPlusOne (h : s.policy.loadStoreI = .xPlusOne) (x : RegIdx) :
    (s.stepIndex x).I.toNat = (s.I.toNat + x.toNat + 1) % 65536 := by
  rw [State.stepIndex_eq, h]
  simp [Nat.add_assoc]

/-- What a block transfer leaves after its index step, from what it leaves before it: the pieces of
`B` are those the transfer writes. -/
theorem State.stepIndex_endsTransfer {B : Piece → Prop} (hadv : Advanced s t) (hI : t.I = s.I)
    (hpol : t.policy = s.policy)
    (hsame : SameBut (fun p => p ∈ [Piece.pc, .status, .frame] ∨ B p) s t) (x : RegIdx) :
    (s.policy.loadStoreI = .unchanged → (t.stepIndex x).I = s.I) ∧
    (s.policy.loadStoreI = .xPlusOne →
      (t.stepIndex x).I.toNat = (s.I.toNat + x.toNat + 1) % 65536) ∧
    Advanced s (t.stepIndex x) ∧
    SameBut (fun p => p ∈ [Piece.I, .pc, .status, .frame] ∨ B p) s (t.stepIndex x) := by
  rw [← hpol, ← hI]
  refine ⟨fun h => State.stepIndex_I_of_unchanged h x, fun h => State.stepIndex_I_of_xPlusOne h x,
    ?_, fun p hp => ?_⟩
  · rw [State.stepIndex_only_I]; exact hadv
  · have hpre : p.same s t := hsame p fun hw => hp (hw.imp_left (List.mem_cons_of_mem _))
    rw [State.stepIndex_only_I]
    cases p with
    | I => simp at hp
    | _ => exact hpre

/-! ### The transfers -/

theorem exec_setIndexToBinaryCodedVx_of_addressable {x : RegIdx} (h : s.addressable s.I.toNat 3) :
    exec (.setIndexToBinaryCodedVx x) s = .next (s.storeBlock (bcdDigits (s.reg x))) := by
  have hwrite := State.advance_writeBlock_of_addressable (bs := bcdDigits (s.reg x)) h
  rw [exec, execSetIndexToBinaryCodedVx, hwrite]; rfl

theorem exec_dumpRegisters_of_addressable {x : RegIdx}
    (h : s.addressable s.I.toNat (x.toNat + 1)) :
    exec (.dumpRegisters x) s = .next ((s.storeBlock (s.regBlock x)).stepIndex x) := by
  have hwrite := State.advance_writeBlock_of_addressable (bs := s.regBlock x)
    (s.length_regBlock x ▸ h)
  rw [exec, execDumpRegisters, hwrite]; rfl

theorem exec_loadRegisters_of_addressable {x : RegIdx}
    (h : s.addressable s.I.toNat (x.toNat + 1)) :
    exec (.loadRegisters x) s = .next ((s.loadBlock x).stepIndex x) := by
  have hread := State.readBlock_of_addressable (a := s.dataBase) h
  rw [exec, execLoadRegisters, hread]; rfl

/-- Settles O47: the digits are a block of three bytes stored from `I` on. -/
theorem binaryCodedDigits : Obligations.BinaryCodedDigits := by
  intro s x h
  have hdigit := s.storeBlock_byte (bs := bcdDigits (s.reg x)) (by decide : 3 ≤ 4096)
  refine ⟨_, exec_setIndexToBinaryCodedVx_of_addressable h, ?_, ?_, ?_,
    s.storeBlock_advanced _, s.storeBlock_sameBut (bcdDigits (s.reg x))⟩
  · exact congrArg BitVec.toNat (hdigit 0 (by decide : 0 < 3))
  · exact congrArg BitVec.toNat (hdigit 1 (by decide : 1 < 3))
  · exact congrArg BitVec.toNat (hdigit 2 (by decide : 2 < 3))

/-- Byte `r` of the block stored is `V[r]`. -/
theorem State.storeBlock_regBlock_byte (s : State) {x r : RegIdx} (hr : r.toNat ≤ x.toNat) :
    (s.storeBlock (s.regBlock x)).byte ((s.I.toNat + r.toNat) % 4096) = s.reg r := by
  have hx := x.isLt
  have hlen := s.length_regBlock x
  rw [State.storeBlock_byte s (by rw [hlen, Config.memSize]; omega) r.toNat (by omega),
    State.getElem_regBlock, BitVec.ofNat_toNat, BitVec.setWidth_eq]

/-- Settles O48: the registers are a block stored from `I` on, and the index step follows it. -/
theorem dumpRegistersStoresBlock : Obligations.DumpRegistersStoresBlock := by
  intro s x h
  have hsame := s.storeBlock_sameBut (s.regBlock x)
  simp only [State.length_regBlock, Nat.lt_succ_iff] at hsame
  refine ⟨_, exec_dumpRegisters_of_addressable h, fun r hr => ?_,
    State.stepIndex_endsTransfer (s.storeBlock_advanced _) rfl rfl hsame x⟩
  rw [State.byte_stepIndex, State.storeBlock_regBlock_byte s hr]

/-- Settles O49: the bytes from `I` on are loaded as a block, and the index step follows it. -/
theorem loadRegistersLoadsBlock : Obligations.LoadRegistersLoadsBlock := by
  intro s x h
  refine ⟨_, exec_loadRegisters_of_addressable h, fun r hr => ?_,
    State.stepIndex_endsTransfer (s.loadBlock_advanced x) (s.loadBlock_I x) (s.loadBlock_policy x)
      (s.loadBlock_sameBut x) x⟩
  rw [State.reg_stepIndex, State.loadBlock_reg, if_pos hr]

end Sys2Proof.Machine

/-! PROOFS. Random (spec/44_random.md R210, R211). -/

namespace Sys2Proof.Machine

/-- The end of a cycle that takes a free choice and writes `V[x]`: that of a cycle that only writes
`V[x]`, begun after the choice is taken. -/
theorem State.drawByte_setReg_endsCycle (s : State) (x : RegIdx) (v : Byte) :
    Advanced s (s.advance.drawByte.2.setReg x v) ∧
      SameButList [.reg x, .choices, .pc, .status, .frame] s
        (s.advance.drawByte.2.setReg x v) := by
  obtain ⟨hadv, hsame⟩ := s.drawByte.2.setReg_endsCycle x v
  refine ⟨hadv, fun p hp => ?_⟩
  have hdrawn : p.same s.drawByte.2 (s.advance.drawByte.2.setReg x v) :=
    hsame p fun hw => hp (((List.sublist_cons_self _ _).cons_cons _).subset hw)
  cases p with
  | choices => simp at hp
  | _ => exact hdrawn

/-- Settles O51: `V[x]` takes the free byte masked, whose bits outside `nn` the mask clears. -/
theorem randomMasksFreeByte : Obligations.RandomMasksFreeByte := by
  intro s x nn
  refine ⟨_, rfl, State.reg_setReg_self _ x _, fun k hk => ?_, rfl,
    s.drawByte_setReg_endsCycle x _⟩
  rw [State.reg_setReg_self, BitVec.getLsbD_and, hk, Bool.and_false]

end Sys2Proof.Machine

/-! PROOFS. The display: one pixel inverted, Clear, and Draw once and twice
(spec/45_display.md R216 to R222). -/

namespace Sys2Proof.Machine

variable {s t : State}

/-! ### One pixel, and the dark display -/

/-- Settles O55: the rules of `Display.invert`, read at the inverted pixel and at the others. -/
theorem invertFlipsOnePixel : Obligations.InvertFlipsOnePixel := by
  intro w h d x y hd hx hy
  have hpixel := Display.pixel_invert hd hx hy
  have hflip : (d.invert x y).1.pixel x y = !d.pixel x y := (hpixel x y).trans (if_pos ⟨rfl, rfl⟩)
  refine ⟨hflip, hflip, fun px py hne => ?_,
    Display.shaped_of_map_length (d.map_length_invert x y) hd, d.invert_invert x y⟩
  rw [hpixel, if_neg (by omega)]

theorem State.clear_sameBut (s : State) :
    SameBut (fun p => p ∈ [Piece.shape, .pc, .status, .frame] ∨ ∃ px py, p = .pixel px py) s
      { s.advance with disp := Display.dark s.params.displayW s.params.displayH }.publish := by
  intro p hp
  cases p with
  | shape | pc | status | frame | pixel => simp at hp
  | _ => rfl

/-- Settles O52: the display is the dark one, published. -/
theorem clearDarkensDisplay : Obligations.ClearDarkensDisplay := fun s =>
  ⟨_, rfl, Display.pixel_dark _ _, Display.shaped_dark _ _, rfl, rfl, rfl, s.clear_sameBut⟩

/-! ### The end of a Draw -/

/-- The display with the sprite of `n` rows drawn, and whether a pixel went from lit to unlit. -/
def State.drawn (s : State) (x y : RegIdx) (n : Nat) : Display × Bool :=
  (s.spriteHits x y n).foldl invertStep (s.disp, false)

/-- The end of a cycle that draws the sprite of `n` rows. -/
def State.endDraw (s : State) (x y : RegIdx) (n : Nat) : State :=
  ({ s.advance with disp := (s.drawn x y n).1 }.setReg regF (flagByte (s.drawn x y n).2)).publish

section
variable (x y : RegIdx) (n : BitVec 4)

theorem exec_draw_of_readBlock
    (h : s.readBlock s.dataBase n.toNat = .ok (s.bytesAt s.I.toNat n.toNat)) :
    exec (.draw x y n) s = .next (s.endDraw x y n.toNat) := by
  rw [exec, execDraw, h, State.endDraw, State.drawn, State.spriteHits_eq, ← drawRows_eq]; rfl

theorem exec_draw_of_addressable (h : s.addressable s.I.toNat n.toNat) :
    exec (.draw x y n) s = .next (s.endDraw x y n.toNat) :=
  exec_draw_of_readBlock x y n (State.readBlock_of_addressable h)

variable {x y n}

/-- A Draw that completes has read the sprite's bytes. -/
theorem exec_draw_next (h : exec (.draw x y n) s = .next t) : t = s.endDraw x y n.toNat := by
  cases hread : s.readBlock s.dataBase n.toNat with
  | error f => rw [exec, execDraw, hread] at h; cases h
  | ok bs =>
    rw [State.readBlock_ok hread] at hread
    exact Host.Outcome.next.inj (h.symm.trans (exec_draw_of_readBlock x y n hread))

end

section
variable (s) (x y : RegIdx) (n : Nat)

theorem State.endDraw_disp : (s.endDraw x y n).disp = (s.drawn x y n).1 := rfl

theorem State.endDraw_map_length :
    (s.endDraw x y n).disp.map List.length = s.disp.map List.length :=
  foldl_invertStep_map_length ..

theorem State.endDraw_VF : (s.endDraw x y n).reg 0xF = flagByte (s.drawn x y n).2 :=
  State.reg_setReg_self ..

theorem State.endDraw_reg_of_ne {r : RegIdx} (hr : r ≠ 0xF) : (s.endDraw x y n).reg r = s.reg r :=
  (State.reg_setReg ..).trans (if_neg hr)

theorem State.endDraw_sameBut :
    SameBut (fun p => p ∈ [Piece.reg 0xF, .pc, .status, .frame] ∨ ∃ px py, p = .pixel px py) s
      (s.endDraw x y n) := by
  intro p hp
  cases p with
  | pc | status | frame | pixel => simp at hp
  | reg r => exact s.endDraw_reg_of_ne x y n (by simpa using hp)
  | shape => exact s.endDraw_map_length x y n
  | _ => rfl

end

/-! ### What a Draw leaves of the pixels and of `VF` -/

theorem flagByte_eq_one_iff {b : Bool} : flagByte b = 1 ↔ b = true := by
  cases b <;> decide

theorem flagByte_of_iff {b : Bool} {p : Prop} (h : b = true ↔ p) :
    (p → flagByte b = 1) ∧ (¬ p → flagByte b = 0) :=
  ⟨fun hp => congrArg flagByte (h.2 hp),
    fun hp => congrArg flagByte (Bool.eq_false_iff.2 fun hb => hp (h.1 hb))⟩

section
variable (x y : RegIdx) {n : Nat} (hf : s.spriteFits n)
include hf

/-- On a display at least as large as the sprite, a pixel is met once or not at all. -/
theorem State.count_spriteHits (px py : Nat) :
    (s.spriteCovers x y n px py → (s.spriteHits x y n).count (px, py) = 1) ∧
    (¬ s.spriteCovers x y n px py → (s.spriteHits x y n).count (px, py) = 0) := by
  rw [← s.mem_spriteHits]
  exact ⟨List.count_eq_one_of_mem (s.spriteHits_nodup x y n hf), List.count_eq_zero_of_not_mem⟩

theorem State.spriteCollides_iff (px py : Nat) :
    s.spriteCollides x y n px py ↔
      s.spriteCovers x y n px py ∧ s.disp.pixel px py = true := by
  obtain ⟨hone, hzero⟩ := State.count_spriteHits x y hf px py
  by_cases hc : s.spriteCovers x y n px py
  · simp [State.spriteCollides, hone hc, hc]
  · simp [State.spriteCollides, hzero hc, hc]

end

section
variable (hd : s.dispOk) (x y : RegIdx) {n : Nat}
include hd

/-- The two clauses of `foldl_invertStep_spec`, at the sprite's pixels. -/
theorem State.drawn_spec :
    (∀ px py, (s.drawn x y n).1.pixel px py =
      (s.disp.pixel px py ^^ decide ((s.spriteHits x y n).count (px, py) % 2 = 1))) ∧
    ((s.drawn x y n).2 = true ↔ ∃ px py, s.spriteCollides x y n px py) := by
  obtain ⟨hparams, hshape⟩ := hd
  obtain ⟨hw, hh, -⟩ := (Config.Params.wf_iff s.params).1 hparams
  obtain ⟨hpixel, hflag⟩ :=
    foldl_invertStep_spec _ (s.spriteHits_inside x y n hw hh) (s.disp, false) hshape
  refine ⟨hpixel, hflag.trans ?_⟩
  rw [or_iff_right Bool.false_ne_true, Prod.exists]; rfl

theorem State.dispOk_endDraw : (s.endDraw x y n).dispOk :=
  ⟨hd.1, Display.shaped_of_map_length (s.endDraw_map_length x y n) hd.2⟩

variable (hf : s.spriteFits n)
include hf

theorem State.drawn_pixel_of_fits (px py : Nat) :
    (s.spriteCovers x y n px py → (s.drawn x y n).1.pixel px py = !s.disp.pixel px py) ∧
    (¬ s.spriteCovers x y n px py → (s.drawn x y n).1.pixel px py = s.disp.pixel px py) := by
  obtain ⟨hone, hzero⟩ := State.count_spriteHits x y hf px py
  rw [(State.drawn_spec hd x y).1]
  exact ⟨fun hc => by simp [hone hc], fun hc => by simp [hzero hc]⟩

theorem State.drawn_collision_of_fits :
    (s.drawn x y n).2 = true ↔
      ∃ px py, s.spriteCovers x y n px py ∧ s.disp.pixel px py = true := by
  simp only [(State.drawn_spec hd x y).2, State.spriteCollides_iff x y hf]

end

/-- Settles O53: a Draw inverts the sprite's pixels in order, and with a display at least as large as the
sprite none of them is met twice. -/
theorem drawXorsSprite : Obligations.DrawXorsSprite := by
  intro s x y n ha
  refine ⟨_, exec_draw_of_addressable x y n ha, rfl, rfl, rfl, s.endDraw_sameBut x y _, ?_, ?_⟩
  · intro hd
    obtain ⟨hpixel, hflag⟩ := State.drawn_spec hd x y
    rw [State.endDraw_VF]
    exact ⟨hpixel, flagByte_of_iff hflag⟩
  · intro hd hf
    rw [State.endDraw_VF]
    exact ⟨State.drawn_pixel_of_fits hd x y hf,
      flagByte_of_iff (State.drawn_collision_of_fits hd x y hf)⟩

/-! ### The same sprite drawn twice -/

section
variable (s) {x y : RegIdx} (n : Nat) (hx : x ≠ 0xF) (hy : y ≠ 0xF)
include hx hy

/-- A Draw whose coordinates are not `VF` leaves its own sprite where it was. -/
theorem State.endDraw_spriteHits : (s.endDraw x y n).spriteHits x y n = s.spriteHits x y n := by
  unfold State.spriteHits
  rw [State.endDraw_reg_of_ne _ x y n hx, State.endDraw_reg_of_ne _ x y n hy]; rfl

theorem State.endDraw_spriteCovers (px py : Nat) :
    (s.endDraw x y n).spriteCovers x y n px py ↔ s.spriteCovers x y n px py := by
  rw [← State.mem_spriteHits, ← State.mem_spriteHits, State.endDraw_spriteHits s n hx hy]

theorem State.endDraw_endDraw_disp : ((s.endDraw x y n).endDraw x y n).disp = s.disp := by
  rw [State.endDraw_disp, State.drawn, State.endDraw_spriteHits s n hx hy]
  exact foldl_invertStep_twice ..

end

/-- Settles O54: the second Draw inverts the same pixels, and finds lit those the first found unlit. -/
theorem drawTwiceRestores : Obligations.DrawTwiceRestores := by
  intro s t u x y n hx hy ht hu
  rw [exec_draw_next hu, exec_draw_next ht]
  refine ⟨s.endDraw_endDraw_disp _ hx hy, fun hd hf => ?_⟩
  have hfound (px py : Nat) (hc : s.spriteCovers x y n.toNat px py) :
      (s.endDraw x y n.toNat).disp.pixel px py = true ↔ s.disp.pixel px py = false := by
    rw [State.endDraw_disp, (State.drawn_pixel_of_fits hd x y hf px py).1 hc, Bool.not_eq_true']
  rw [State.endDraw_VF, flagByte_eq_one_iff,
    State.drawn_collision_of_fits (State.dispOk_endDraw hd x y) x y hf]
  simp only [State.endDraw_spriteCovers s _ hx hy]
  exact exists₂_congr fun px py => and_congr_right (hfound px py)

end Sys2Proof.Machine

/-! PROOFS. The keypad: the key skips and AwaitKeyInput (spec/46_keypad.md R235 to R240). -/

namespace Sys2Proof.Machine

variable {s : State}

/-! ### The latched key against a register -/

@[simp] theorem toNat_keyByte (k : Key) : (keyByte k).toNat = k.toNat :=
  BitVec.toNat_setWidth_of_le (by decide)

/-- The comparison of R235, between bytes, is one between numbers below 16. -/
theorem keyByte_eq_lowNibble_iff (k : Key) (v : Byte) :
    keyByte k = v &&& 0x0F ↔ k.toNat = v.toNat % 16 := by
  rw [← BitVec.toNat_inj, toNat_keyByte, toNat_lowNibble]

theorem State.pressed_reg_iff (s : State) (x : RegIdx) :
    s.pressed (s.reg x) = true ↔ s.holdsKey x := by
  unfold State.pressed State.holdsKey
  cases s.key with
  | none => simp
  | some k => simpa using keyByte_eq_lowNibble_iff k (s.reg x)

/-! ### The key skips -/

/-- A skip on `c`, for a `c` that says whether `P` holds. -/
theorem State.skipIf_pc_of_iff (s : State) {c : Bool} {P : Prop} (h : c = true ↔ P) :
    (P → (s.advance.skipIf c).pc = s.pc + 4) ∧ (¬ P → (s.advance.skipIf c).pc = s.pc + 2) := by
  rw [State.skipIf_advance_pc]
  exact ⟨fun hP => by rw [if_pos (h.2 hP)], fun hP => by rw [if_neg (mt h.1 hP)]⟩

/-- Settles O57: one skips when the latch holds the key and the other when it does not; a skip writes
only `pc`. -/
theorem keySkips : Obligations.KeySkips := by
  intro s x
  have hpressed := s.pressed_reg_iff x
  have hnot : (!s.pressed (s.reg x)) = true ↔ ¬ s.holdsKey x := by
    rw [Bool.not_eq_true', ← Bool.not_eq_true, hpressed]
  obtain ⟨hskip, hnext⟩ := s.skipIf_pc_of_iff hpressed
  obtain ⟨hskip', hnext'⟩ := s.skipIf_pc_of_iff hnot
  exact ⟨⟨_, rfl, hskip, hnext, s.skipIf_endsCycle _⟩,
    ⟨_, rfl, fun hk => hnext' (not_not_intro hk), hskip', s.skipIf_endsCycle _⟩⟩

/-! ### AwaitKeyInput -/

theorem exec_awaitKeyInput_of_none (h : s.key = none) (x : RegIdx) :
    exec (.awaitKeyInput x) s = .next s.stall := by
  rw [exec, execAwaitKeyInput, h]

theorem exec_awaitKeyInput_of_some {k : Key} (h : s.key = some k) (x : RegIdx) :
    exec (.awaitKeyInput x) s = .next (s.advance.setReg x (keyByte k)) := by
  rw [exec, execAwaitKeyInput, h]

/-- Settles O58: by whether the latch holds a key; neither case writes it. -/
theorem awaitKeyInputWaits : Obligations.AwaitKeyInputWaits := by
  intro s x
  refine ⟨fun hnone => ?_, fun k hsome => ?_⟩
  · exact ⟨_, exec_awaitKeyInput_of_none hnone x, rfl, rfl, s.outputs_sameBut _ _⟩
  · refine ⟨_, exec_awaitKeyInput_of_some hsome x, ?_, s.setReg_endsCycle x (keyByte k)⟩
    rw [State.reg_setReg_self, toNat_keyByte]

end Sys2Proof.Machine

/-! PROOFS. The timer instructions (spec/47_timers.md R250 to R252). -/

namespace Sys2Proof.Machine

/-- The end of a cycle whose only effect is on `DT`. -/
theorem State.setDT_endsCycle (s : State) (v : Byte) :
    Advanced s { s.advance with DT := v } ∧
      SameButList [.DT, .pc, .status, .frame] s { s.advance with DT := v } := by
  refine ⟨⟨rfl, rfl, rfl⟩, fun p hp => ?_⟩
  cases p with
  | DT | pc | status | frame => simp at hp
  | _ => rfl

/-- The end of a cycle whose only effect is on `ST`. -/
theorem State.setST_endsCycle (s : State) (v : Byte) :
    Advanced s { s.advance with ST := v } ∧
      SameButList [.ST, .pc, .status, .frame] s { s.advance with ST := v } := by
  refine ⟨⟨rfl, rfl, rfl⟩, fun p hp => ?_⟩
  cases p with
  | ST | pc | status | frame => simp at hp
  | _ => rfl

/-- Settles O59: each writes one of `V[x]`, `DT` and `ST`; the sound port shows the `ST` written. -/
theorem timerInstructions : Obligations.TimerInstructions := fun s x =>
  ⟨⟨_, rfl, State.reg_setReg_self _ x s.DT, s.setReg_endsCycle x _⟩,
    ⟨_, rfl, rfl, s.setDT_endsCycle (s.reg x)⟩,
    ⟨_, rfl, rfl, rfl, s.setST_endsCycle (s.reg x)⟩⟩

end Sys2Proof.Machine

/-! PROOFS. Errors and strobes outside an instruction: a malformed word, the row 0NNN, a halted machine
and the tick (spec/60_exceptions.md R261, R262, R270, R272; spec/70_reset_and_hazards.md R297). -/

namespace Sys2Proof.Machine

variable {s t u : State}

/-! ### Entering and leaving Halted -/

/-- Settles O9: the decoder's one error is raised on the state in which the strobe is taken. -/
theorem malformedWordHalts : Obligations.MalformedWordHalts := by
  intro s e hr hc hf hd
  have hfetch := s.takeStrobe_fetch.trans (State.fetch_eq_wordAtPc hf)
  have hstep : step s = .next (s.takeStrobe.2.raise e) := by
    rw [step_of_running_cycle hr hc]
    exact State.runCycle_of_malformed hfetch (s.takeStrobe_config.1 ▸ hd)
  exact ⟨((decode_decoded _ _).error_iff.1 hd).1, _, hstep, rfl, rfl, rfl, State.raise_sameBut _ e⟩

/-- Settles O60: the constructor's meaning is `State.raise`. -/
theorem incompatibleProgramHalts : Obligations.IncompatibleProgramHalts := fun s _ =>
  ⟨_, rfl, rfl, rfl, rfl, s.raise_sameBut .incompatibleProgram⟩

/-- Settles O18: of the strobes other than a reset, a cycle while halted only reports, and a tick or a key
does not write the run state. -/
theorem onlyResetLeavesHalted : Obligations.OnlyResetLeavesHalted := by
  intro s t e hr h hno
  have hr' : s.takeStrobe.2.run = .halted e := s.takeStrobe_run.trans hr
  rcases step_next h with ⟨-, hc⟩ | ⟨-, rfl⟩ | ⟨k, -, rfl⟩ | ⟨image, hi, -⟩
  · rw [State.cycle_of_halted hr'] at hc
    injection hc with hc
    rw [← hc]; exact hr'
  · exact hr'
  · exact hr'
  · exact absurd hi (hno image)

/-! ### Ticks -/

theorem toNat_decrement (v : Byte) : (decrement v).toNat = v.toNat - 1 := by
  unfold decrement
  split
  · next h => rw [h]; rfl
  · next h =>
    have hv : 1 ≤ v.toNat := Nat.pos_of_ne_zero fun h0 => h (BitVec.eq_of_toNat_eq h0)
    exact BitVec.toNat_sub_of_le (BitVec.le_def.2 hv)

theorem State.tick_sameBut (s : State) : SameButList [.DT, .ST] s s.tick := by
  intro p hp
  cases p with
  | DT | ST => simp at hp
  | _ => rfl

/-- Settles O11: the step is `State.tick` on the state in which the strobe is taken. -/
theorem tickDecrementsTimers : Obligations.TickDecrementsTimers := by
  intro s htick
  have hstep : step s = .next s.takeStrobe.2.tick := by rw [step_eq, htick]; rfl
  obtain ⟨l, n, htake⟩ := s.takeStrobe_eq
  rw [htake] at hstep ⊢
  exact ⟨_, hstep, toNat_decrement _, toNat_decrement _, State.tick_sameBut _⟩

theorem Piece.same_trans {p : Piece} (h : p.same s t) (h' : p.same t u) : p.same s u := by
  cases p <;> exact h'.trans h

theorem SameBut.trans {P : Piece → Prop} (h : SameBut P s t) (h' : SameBut P t u) : SameBut P s u :=
  fun p hp => Piece.same_trans (h p hp) (h' p hp)

theorem State.settled_tick_sameBut (s : State) (rest : List Strobe) :
    SameButList [.DT, .ST, .strobes] s { s with strobes := rest }.tick := by
  intro p hp
  cases p with
  | DT | ST | strobes => simp at hp
  | _ => rfl

/-- A run goes on from the next state of its first step. -/
theorem run_succ_of_step {M : Host.Core} {s t : M.State} (h : M.step s = .next t) (k : Nat) :
    M.run (k + 1) s = M.run k t := by
  rw [Host.Core.run, h]

/-- Settles O30, by induction on the number of ticks: each takes 1 from a timer that is not 0. -/
theorem timersAfterTicks : Obligations.TimersAfterTicks := by
  intro k
  induction k with
  | zero => exact fun s rest hs => ⟨s, rfl, rfl, rfl, hs, fun p _ => by cases p <;> rfl⟩
  | succ k ih =>
    intro s rest hs
    obtain ⟨t, hrun, hDT, hST, hrest, hsame⟩ :=
      ih { s with strobes := List.replicate k Strobe.tick ++ rest }.tick rest rfl
    refine ⟨t, (run_succ_of_step (M := core) (step_of_cons hs) k).trans hrun, ?_, ?_, hrest,
      (s.settled_tick_sameBut _).trans hsame⟩
    · rw [hDT, State.tick_DT, toNat_decrement, Nat.sub_sub, Nat.add_comm]
    · rw [hST, State.tick_ST, toNat_decrement, Nat.sub_sub, Nat.add_comm]

end Sys2Proof.Machine

/-! PROOFS. A reset with an image that fits and with one that does not
(spec/70_reset_and_hazards.md R290, R292; spec/20_memory.md R77). -/

namespace Sys2Proof.Machine

theorem State.reg_reset (r : RegIdx) : State.reset.reg r = 0 := resetStateHoldsSpecValues.1 r

/-- The step is the reset, from a state that differs in the model's own fields alone. -/
theorem step_of_reset {s : State} {image : List Byte} (h : s.takeStrobe.1 = .reset image) :
    ∃ l n, step s = .next (State.resetWith { s with strobes := l, choices := n } image) := by
  obtain ⟨l, n, htake⟩ := s.takeStrobe_eq
  exact ⟨l, n, by rw [step_eq, h, htake]; rfl⟩

/-- With the image loaded over the reset contents, its bytes from `a` on, then the font's, and 0 elsewhere
(spec/20_memory.md R64, R65, R77). -/
theorem Memory.read_load_nil (p : Config.Params) (a : Nat) (image : List Byte) (b : Nat) :
    (Memory.load p [] a image).read p b =
      if a ≤ b ∧ b < a + image.length then image.getD (b - a) 0
      else if p.fontBase ≤ b ∧ b < p.fontBase + 16 * p.glyphSize then p.font.getD (b - p.fontBase) 0
      else 0 := by
  rw [Memory.read_load]
  by_cases h : a ≤ b ∧ b - a < image.length
  · rw [dif_pos h, if_pos (by omega), List.getD_eq_getElem image 0 h.2]
  · rw [dif_neg h, if_neg (by omega)]; rfl

/-- Settles O13: the state the reset leaves, field by field; taking the strobe changes no parameter. -/
theorem resetSetsWholeState : Obligations.ResetSetsWholeState := by
  intro s image hreset hfit
  obtain ⟨l, n, hstep⟩ := step_of_reset hreset
  rcases State.resetWith_cases { s with strobes := l, choices := n } image with ⟨-, he⟩ | ⟨hlong, -⟩
  · rw [he] at hstep
    exact ⟨_, hstep, State.reg_reset, rfl, rfl, rfl, rfl, rfl, Display.pixel_dark _ _,
      Display.shaped_dark _ _, rfl, rfl, rfl, rfl, rfl, fun a _ => Memory.read_load_nil _ _ image a⟩
  · exact absurd hfit hlong.not_ge

/-- Settles O14: the image is not loaded, so memory reads as the reset contents. -/
theorem oversizeImageHalts : Obligations.OversizeImageHalts := by
  intro s image hreset hlong
  obtain ⟨l, n, hstep⟩ := step_of_reset hreset
  rcases State.resetWith_cases { s with strobes := l, choices := n } image with ⟨hfit, -⟩ | ⟨-, he⟩
  · exact absurd hlong hfit.not_gt
  · rw [he] at hstep
    exact ⟨_, hstep, State.reg_reset, rfl, rfl, rfl, rfl, rfl, Display.pixel_dark _ _,
      Display.shaped_dark _ _, rfl, rfl, rfl, rfl, rfl, rfl, fun a _ => rfl⟩

end Sys2Proof.Machine

/-! PROOFS. What a completed transfer has written: the word fetched next, and the general registers an
instruction writes (spec/70_reset_and_hazards.md R296; spec/10_state.md R21). -/

namespace Sys2Proof.Machine

variable {s t u : State} {x r : RegIdx}

/-! ### Transfers that completed -/

theorem exec_setIndexToBinaryCodedVx_next (h : exec (.setIndexToBinaryCodedVx x) s = .next t) :
    t = s.storeBlock (bcdDigits (s.reg x)) :=
  State.writeBlock_ok (ofAccess_next h)

theorem exec_dumpRegisters_next (h : exec (.dumpRegisters x) s = .next t) :
    t = (s.storeBlock (s.regBlock x)).stepIndex x := by
  have h := ofAccess_next h
  split at h
  · cases h
  · next u hu =>
    injection h with h
    rw [← h, State.writeBlock_ok hu]; rfl

theorem exec_loadRegisters_next (h : exec (.loadRegisters x) s = .next t) :
    t = (s.loadBlock x).stepIndex x := by
  have h := ofAccess_next h
  split at h
  · cases h
  · next bs hbs =>
    injection h with h
    rw [← h, State.readBlock_ok hbs]; rfl

/-! ### A stored word fetched next -/

theorem State.fetch_stepIndex (s : State) (x : RegIdx) : (s.stepIndex x).fetch = s.fetch := by
  have hword : (s.stepIndex x).fetchWord = s.fetchWord := by
    rw [State.stepIndex_only_I]
    exact State.fetchWord_congr rfl rfl fun _ => rfl
  rw [State.fetch, State.fetch, hword, State.stepIndex_only_I]

/-- Bytes `j` and `j + 1` of a block stored where byte `j` meets the next instruction's address are the
word fetched next: the store comes before the fetch, and no byte of it falls on another. -/
theorem State.fetch_storeBlock (hmask : s.policy.addr = .mask)
    (ho : s.policy.oddPc = .fetch ∨ s.pc.toNat % 2 = 0) {bs : List Byte}
    (hl : bs.length ≤ Config.memSize) {j : Nat} (hj : j + 1 < bs.length)
    (hpc : (s.I.toNat + j) % 4096 = (s.pc.toNat + 2) % 4096) :
    (s.storeBlock bs).fetch = .ok (bs[j] ++ bs[j + 1]) := by
  have hnext : (s.storeBlock bs).pc.toNat = (s.pc.toNat + 2) % 65536 := BitVec.toNat_add s.pc 2
  have hf : (s.storeBlock bs).fetchable := by
    refine ⟨ho.imp_right fun heven => ?_, .inl hmask⟩
    rw [hnext]; omega
  have hhi : (s.storeBlock bs).pc.toNat % 4096 = (s.I.toNat + j) % 4096 := by omega
  have hlo : ((s.storeBlock bs).pc.toNat + 1) % 4096 = (s.I.toNat + (j + 1)) % 4096 := by omega
  rw [State.fetch_eq_wordAtPc hf, State.wordAtPc, Config.memSize, hhi, hlo,
    State.storeBlock_byte s hl j (by omega), State.storeBlock_byte s hl (j + 1) hj]

/-- Division of bytes is division of their values. -/
theorem bcdDigits_eq (v : Byte) : bcdDigits v = [BitVec.ofNat 8 (v.toNat / 100),
    BitVec.ofNat 8 (v.toNat / 10 % 10), BitVec.ofNat 8 (v.toNat % 10)] := by
  have hofNat (d : Byte) : d = BitVec.ofNat 8 d.toNat := by simp
  rw [bcdDigits, hofNat (v / 100), hofNat (v / 10 % 10), hofNat (v % 10)]; rfl

/-- Settles O32: the registers and the digits are blocks stored from `I` on. -/
theorem storedWordIsFetchedNext : Obligations.StoredWordIsFetchedNext := by
  intro s t x hmask ho
  refine ⟨fun j hj h hpc => ?_, fun h => ?_⟩
  · have hx := x.isLt
    have hlen := s.length_regBlock x
    rw [exec_dumpRegisters_next h, State.fetch_stepIndex,
      State.fetch_storeBlock hmask ho (by rw [hlen, Config.memSize]; omega) (by omega) hpc,
      State.getElem_regBlock, State.getElem_regBlock]
  · rw [exec_setIndexToBinaryCodedVx_next h, bcdDigits_eq]
    exact ⟨State.fetch_storeBlock (j := 0) hmask ho (by simp [Config.memSize]) (by simp),
      State.fetch_storeBlock (j := 1) hmask ho (by simp [Config.memSize]) (by simp)⟩

/-! ### The general registers an instruction writes -/

theorem reg_of_next (h : (.next u : Result) = .next t) (hu : u.reg r = s.reg r) :
    t.reg r = s.reg r := by
  injection h with h
  exact h ▸ hu

theorem State.reg_setReg_of_ne (s : State) (hr : r ≠ x) (v : Byte) :
    (s.setReg x v).reg r = s.reg r := by
  rw [State.reg_setReg, if_neg hr]

theorem State.reg_skipIf (s : State) (c : Bool) : (s.skipIf c).reg r = s.reg r := by
  rw [State.skipIf_eq]; rfl

theorem exec_call_reg {nnn : Addr} (h : exec (.call nnn) s = .next t) : t.reg r = s.reg r := by
  rcases Nat.lt_or_ge s.stack.length s.params.stackDepth with room | full
  · exact reg_of_next ((exec_call_of_room room nnn).symm.trans h) rfl
  · exact reg_of_next ((exec_call_of_full full nnn).symm.trans h) rfl

theorem exec_ret_reg (h : exec .ret s = .next t) : t.reg r = s.reg r := by
  rcases s.pop_cases with ⟨hs, -⟩ | ⟨l, v, hs, -⟩
  · exact reg_of_next ((exec_ret_of_nil hs).symm.trans h) rfl
  · exact reg_of_next ((exec_ret_of_concat hs).symm.trans h) rfl

theorem exec_awaitKeyInput_reg (hr : r ≠ x) (h : exec (.awaitKeyInput x) s = .next t) :
    t.reg r = s.reg r := by
  cases hk : s.key with
  | none => exact reg_of_next ((exec_awaitKeyInput_of_none hk x).symm.trans h) rfl
  | some k =>
    exact reg_of_next ((exec_awaitKeyInput_of_some hk x).symm.trans h) (State.reg_setReg_of_ne _ hr _)

/-- Settles O26, row by row of the table. -/
theorem writersOfGeneralRegisters : Obligations.WritersOfGeneralRegisters := by
  intro i s t h r hr
  cases i with
  | setImmediate | addImmediate | copy | or | and | xor | random | setVxToDelayTimer =>
    exact reg_of_next h (State.reg_setReg_of_ne _ hr _)
  | awaitKeyInput => exact exec_awaitKeyInput_reg hr h
  | add | subtract | setVxToVyMinusVx | rightShift | leftShift =>
    obtain ⟨hx, hF⟩ := not_or.1 hr
    exact reg_of_next h (State.reg_setResultFlag_of_ne _ hx hF _ _ _)
  | draw x y n => rw [exec_draw_next h, State.endDraw_reg_of_ne _ x y _ hr]
  | loadRegisters x =>
    rw [exec_loadRegisters_next h, State.reg_stepIndex, State.loadBlock_reg]
    exact if_neg hr
  | call => exact exec_call_reg h
  | ret => exact exec_ret_reg h
  | skipIfVxEqualsNn | skipIfVxNotEqualsNn | skipIfVxEqualsVy | skipIfVxNotEqualsVy
  | skipIfKeyPressed | skipIfKeyNotPressed => exact reg_of_next h (State.reg_skipIf _ _)
  | setIndexToBinaryCodedVx => rw [exec_setIndexToBinaryCodedVx_next h]; rfl
  | dumpRegisters => rw [exec_dumpRegisters_next h, State.reg_stepIndex]; rfl
  | clear | incompatibleProgram | jump | setIndexRegister | jumpWithPcOffset | setDelayTimer
  | setSoundTimer | addToIndex | setIndexToFontCharacter => exact reg_of_next h rfl

end Sys2Proof.Machine
